-- ==== Sys2Proof/Word.lean ====
section
/-! DEFINITION. The fixed widths of the core (00_scope.md R12), each a bit vector: the spec shifts, selects or
exclusive-ors every one of these values. Bit `W - 1 - i` of a value is element `i` of the source's sequence (R6). -/

namespace Sys2Proof

/-- CMD_W and OUT_W: a command word or an output word, 16 bits (R12, R90). -/
abbrev Word := BitVec 16

/-- CHAR_W: a character's 8-bit code point (R12). -/
abbrev Char8 := BitVec 8

/-- BLOCK_W: a block, 16 bits (R12). -/
abbrev Block := BitVec 16

/-- HALF_W: one half of a block, 8 bits; also SUB_W, a substitution result (R12). -/
abbrev HalfBlock := BitVec 8

/-- KEY_W: the master key and the key-chain state, 12 bits (R12). -/
abbrev Key := BitVec 12

/-- KHALF_W: one half of the key-chain state, 6 bits (R12). -/
abbrev KeyHalf := BitVec 6

/-- EXP_W: an expanded half, a round key or their exclusive-or, 12 bits (R12). -/
abbrev Expanded := BitVec 12

/-- SIN_W: one S-box input vector, 6 bits (R12). -/
abbrev SboxIn := BitVec 6

/-- SOUT_W: one S-box output, 4 bits (R12). -/
abbrev SboxOut := BitVec 4

end Sys2Proof
end

