-- ==== Sys2Proof/Syntax.lean ====
section
/-! DEFINITION. The five commands (00_scope.md R5, 30_encoding.md R95), one constructor per row of opcode_table.json. -/

namespace Sys2Proof

/-- A command. Operands stand at the width of their field, taken without extension (30_encoding.md R94). -/
inductive Instr where
  /-- NOP, format N, 46_commands.md R230. -/
  | nop
  /-- SETKEY k, format K, 46_commands.md R231; `key` is KEY12. -/
  | setkey (key : Key)
  /-- PUTCH c, format C, 46_commands.md R232; `char` is CHAR8. -/
  | putch (char : Char8)
  /-- FLUSH, format N, 46_commands.md R233. -/
  | flush
  /-- CLRERR, format N, 46_commands.md R234. -/
  | clrerr
  deriving DecidableEq, Repr

end Sys2Proof
end

