-- ==== Sys2Proof/Decode.lean ====
section
/-! DEFINITION. The command word (30_encoding.md): its fields, the total decoder of R96, which refuses an illegal word
by the reason R97 gives, and after it the encoder, written from the formats of R91 to R93 and the opcode map of R95. -/

namespace Sys2Proof

/-- Why a word is illegal: the three cases of 30_encoding.md R97. -/
inductive IllegalWhy where
  /-- OP in 0x5..0xF. -/
  | unassignedOpcode
  /-- Format N with `cw[11:0] ≠ 0`. -/
  | nonzeroZ12
  /-- Format C with `cw[11:8] ≠ 0`. -/
  | nonzeroZ4
  deriving DecidableEq, Repr

/-- A result of decoding: a command or ILLEGAL (R96). -/
inductive Decoded where
  | command (i : Instr)
  | illegal (why : IllegalWhy)
  deriving DecidableEq, Repr

/-- OP = `cw[15:12]` (R90). -/
def opField (cw : Word) : BitVec 4 := cw.extractLsb' 12 4

/-- ARG = `cw[11:0]` (R90); KEY12 of format K (R92), Z12 of format N (R91). -/
def argField (cw : Word) : BitVec 12 := cw.extractLsb' 0 12

/-- Z4 = `cw[11:8]` of format C (R93). -/
def z4Field (cw : Word) : BitVec 4 := cw.extractLsb' 8 4

/-- CHAR8 = `cw[7:0]` of format C (R93). -/
def charField (cw : Word) : Char8 := cw.extractLsb' 0 8

/-- Format N: the word is the command only when Z12 is 0 (R91). -/
def decodeN (cw : Word) (i : Instr) : Decoded :=
  if argField cw = 0#12 then .command i else .illegal .nonzeroZ12

/-- Format C: the word is a PUTCH only when Z4 is 0 (R93). -/
def decodeC (cw : Word) : Decoded :=
  if z4Field cw = 0#4 then .command (.putch (charField cw)) else .illegal .nonzeroZ4

/-- `decode(cw)` of R96, total on the 65536 words. -/
def decode (cw : Word) : Decoded :=
  if opField cw = 0x0#4 then decodeN cw .nop
  else if opField cw = 0x1#4 then .command (.setkey (argField cw))
  else if opField cw = 0x2#4 then decodeC cw
  else if opField cw = 0x3#4 then decodeN cw .flush
  else if opField cw = 0x4#4 then decodeN cw .clrerr
  else .illegal .unassignedOpcode

/-- The command a decoding holds, if it is not ILLEGAL. -/
def Decoded.toInstr? : Decoded → Option Instr
  | .command i => some i
  | .illegal _ => none

/-- A word of format N (R91): OP, then twelve zeros. -/
def wordN (op : BitVec 4) : Word := op ++ 0#12

/-- A word of format K (R92): OP, then KEY12. -/
def wordK (op : BitVec 4) (key : Key) : Word := op ++ key

/-- A word of format C (R93): OP, four zeros, then CHAR8. -/
def wordC (op : BitVec 4) (char : Char8) : Word := op ++ (0#4 ++ char)

/-- The word of a command, from the formats and the opcode map (R91 to R93, R95). -/
def encode : Instr → Word
  | .nop        => wordN 0x0#4
  | .setkey key => wordK 0x1#4 key
  | .putch char => wordC 0x2#4 char
  | .flush      => wordN 0x3#4
  | .clrerr     => wordN 0x4#4

/-- The "match" column of R95 for a command's row. -/
def rowMatch : Instr → Word
  | .nop      => 0x0000#16
  | .setkey _ => 0x1000#16
  | .putch _  => 0x2000#16
  | .flush    => 0x3000#16
  | .clrerr   => 0x4000#16

/-- The "mask" column of R95 for a command's row. -/
def rowMask : Instr → Word
  | .nop      => 0xFFFF#16
  | .setkey _ => 0xF000#16
  | .putch _  => 0xFF00#16
  | .flush    => 0xFFFF#16
  | .clrerr   => 0xFFFF#16

/-- `w` in the opcode table's numbering as the command word: bit 0 of `w` is `cmd[0]`, and there is one length, 16
bits (R90). Log entry 15. -/
def tableWord (nbits w : Nat) : Word := BitVec.ofNat 16 (w % 2 ^ nbits)

/-- The command the decoder reads from a table word of at most 16 bits; none where it is illegal or longer (R90, R96). -/
def decodeTableWord (nbits w : Nat) : Option Instr :=
  if nbits ≤ 16 then (decode (tableWord nbits w)).toInstr? else none

end Sys2Proof
end

