-- ==== Sys2Proof/Config.lean ====
section
/-! DEFINITION. The configuration record CFG (00_scope.md R26) and the values the spec leaves open, each an opaque
constant: nothing can be proved of their contents. This hardware's own record is
`Sys2Proof.Machine.hardwareCfg` in Machine/Tables.lean. -/

namespace Sys2Proof

/-- CFG = (E_TABLE, P_TABLE, K_TABLE, SHIFT1_SET, ROUND_COUNT, SBOX_A, SBOX_B), fixed when the core is built
(R26). Table entries are 1-based positions (R7). An S-box is a 4-row by 16-column matrix, so its two indices are a
2-bit row and a 4-bit column (R25); that its entries lie in 0..15 is a check (R27), not a type. -/
structure Cfg where
  eTable     : List Nat
  pTable     : List Nat
  kTable     : List Nat
  shift1Set  : List Nat
  roundCount : Nat
  sboxA      : BitVec 2 → BitVec 4 → Nat
  sboxB      : BitVec 2 → BitVec 4 → Nat

namespace Config

/-- SBOX_A's contents: OPEN (R25, 92 D4). No body: no entry is known. Log entry 6. -/
opaque sboxA : BitVec 2 → BitVec 4 → SboxOut

/-- SBOX_B's contents: OPEN (R25, 92 D4). No body: no entry is known. Log entry 6. -/
opaque sboxB : BitVec 2 → BitVec 4 → SboxOut

/-- The value the host sees on `out_data` while `out_valid = 0`: any value (10_state.md R47, 93 U20). It may depend
on the cycle and on BLOCK, the register the hardware drives there. Log entry 5. -/
opaque freeOutData : Nat → Block → Word

/-- The value the host sees on `out_short` while `out_valid = 0`: any value (10_state.md R47, 93 U20). Log entry 5. -/
opaque freeOutShort : Nat → Bool → Bool

end Config

end Sys2Proof
end

