-- ==== Sys2Proof/Machine/BitOps.lean ====
section
/-! DEFINITION. Bit sequences (00_scope.md R6 to R8) and the bit operations of 41_bitops.md. A table selection is
written once, from R120 on sequences; EXPAND, PERM8 and KSEL are its three instances, each with the table of a
configuration record (R125 to R127 give them for this hardware's tables). -/

namespace Sys2Proof.Machine

/-- Element `i` (0-based, leftmost first) of the sequence a value holds: bit `W - 1 - i` (00_scope.md R6). -/
def seqElem {w : Nat} (v : BitVec w) (i : Nat) : Bool := v.getMsbD i

/-- `pos_W(v, t)`: the element at 1-based position `t` (00_scope.md R8). -/
def posElem {w : Nat} (v : BitVec w) (t : Nat) : Bool := seqElem v (t - 1)

/-- The sequence a value holds, leftmost element first (R6). -/
def toSeq {w : Nat} (v : BitVec w) : List Bool := (List.range w).map (seqElem v)

/-- The `n`-bit value of a sequence of `n` elements read as a binary numeral, leftmost element most significant
(R6). -/
def ofSeq (n : Nat) (bits : List Bool) : BitVec n := (BitVec.ofBoolListBE bits).setWidth n

/-- `expand` and `permute` (41_bitops.md R120, R121): `y(i) = x(T[i] - 1)`. -/
def tableSelect {w : Nat} (n : Nat) (table : List Nat) (x : BitVec w) : BitVec n :=
  ofSeq n (table.map (posElem x))

/-- `xor` of two values of equal width (R122); unequal widths cannot be written. -/
def xorBits {w : Nat} (a b : BitVec w) : BitVec w := a ^^^ b

/-- `padBinary`: a numeral of at most `width` digits is left-padded with zeros to `width` digits (R123). -/
def padBinary (numeral : List Bool) (width : Nat) : List Bool :=
  List.replicate (width - numeral.length) false ++ numeral

/-- `bits_width(n)`, the width-bit value of an integer below `2^width` (00_scope.md R8, 41_bitops.md R123). -/
def toBinary (n width : Nat) : BitVec width := BitVec.ofNat width n

/-- `int(v)`, the unsigned value of a sequence (R124). -/
def intOf {w : Nat} (v : BitVec w) : Nat := v.toNat

/-- EXPAND: the 8-bit right half to 12 bits through E_TABLE (R125). -/
def expandHalf (c : Cfg) (r : HalfBlock) : Expanded := tableSelect 12 c.eTable r

/-- PERM8: the 8-bit substitution result to 8 bits through P_TABLE (R126). -/
def perm8 (c : Cfg) (s : HalfBlock) : HalfBlock := tableSelect 8 c.pTable s

/-- KSEL: the 12-bit key-chain state to the 12-bit round key through K_TABLE (R127). -/
def ksel (c : Cfg) (n : Key) : Expanded := tableSelect 12 c.kTable n

end Sys2Proof.Machine
end

