-- ==== Sys2Proof/Machine/Operands.lean ====
section
/-! DEFINITION. Operand forms: the mixed-width views of 20_memory.md R73 and the blocks formed from characters
(40_bit_encoder.md R113, R114). -/

namespace Sys2Proof.Machine

/-- L = `BLOCK[15:8]`: the left half of a block, its first character (10_state.md R33, 20_memory.md R72). -/
def leftHalf (b : Block) : HalfBlock := b.extractLsb' 8 8

/-- R = `BLOCK[7:0]`: the right half of a block, its second character (R33, R72). -/
def rightHalf (b : Block) : HalfBlock := b.extractLsb' 0 8

/-- The left half of a key-chain state, bits 11:6 (10_state.md R34, R73). -/
def keyLeft (n : Key) : KeyHalf := n.extractLsb' 6 6

/-- The right half of a key-chain state, bits 5:0 (R34, R73). -/
def keyRight (n : Key) : KeyHalf := n.extractLsb' 0 6

/-- vA, the first S-box vector of a masked value, bits 11:6 (42_substitution.md R143). -/
def vectorA (m : Expanded) : SboxIn := m.extractLsb' 6 6

/-- vB, the second S-box vector, bits 5:0 (R143). -/
def vectorB (m : Expanded) : SboxIn := m.extractLsb' 0 6

/-- SBOX_A's part of a substitution result, bits 7:4 (R73, R143). -/
def outputA (s : HalfBlock) : SboxOut := s.extractLsb' 4 4

/-- SBOX_B's part of a substitution result, bits 3:0 (R73, R143). -/
def outputB (s : HalfBlock) : SboxOut := s.extractLsb' 0 4

/-- The block of a pair of characters: the first is the left half (40_bit_encoder.md R113). -/
def pairBlock (c0 c1 : Char8) : Block := c0 ++ c1

/-- The short block of one character: the right half is eight zero bits (40_bit_encoder.md R114). -/
def shortBlock (c0 : Char8) : Block := c0 ++ 0x00#8

/-- `swapH(X) = X[7:0] ++ X[15:8]` (44_feistel_round.md R184). -/
def swapHalves (b : Block) : Block := rightHalf b ++ leftHalf b

end Sys2Proof.Machine
end

