-- ==== Sys2Proof/Machine/KeySchedule.lean ====
section
/-! DEFINITION. The key-schedule generator (43_key_schedule.md). -/

namespace Sys2Proof.Machine

/-- rotateLeft: cyclic left rotation of a 6-bit half (R160; `rotl_6`, 00_scope.md R8). -/
def rotateHalf (h : KeyHalf) (amount : Nat) : KeyHalf := h.rotateLeft amount

/-- Both halves of a key-chain state rotated left by one amount, left then right (R162). -/
def rotateHalves (n : Key) (amount : Nat) : Key :=
  rotateHalf (keyLeft n) amount ++ rotateHalf (keyRight n) amount

/-- deriveRoundShift: 1 for the rounds of SHIFT1_SET, 2 for every other (R161). -/
def roundShift (c : Cfg) (r : Nat) : Nat := if r ∈ c.shift1Set then 1 else 2

/-- advance, next state: the key-chain state after round `r`'s rotation (R162). -/
def advanceChain (c : Cfg) (n : Key) (r : Nat) : Key := rotateHalves n (roundShift c r)

/-- advance, round key: KSEL of the state after the rotation (R163). -/
def roundKeyOf (c : Cfg) (next : Key) : Expanded := ksel c next

/-- `c(r)`, the cumulative rotation after round `r` (R165). -/
def cumulativeShift (c : Cfg) : Nat → Nat
  | 0     => 0
  | r + 1 => cumulativeShift c r + roundShift c (r + 1)

/-- The key-chain state after round `r` of a block that started under key `k` (R164, R200). -/
def chainAfter (c : Cfg) (k : Key) : Nat → Key
  | 0     => k
  | r + 1 => advanceChain c (chainAfter c k r) (r + 1)

/-- The round key of round `r` (1-based) of a block that started under key `k` (R163, R165). -/
def roundKey (c : Cfg) (k : Key) (r : Nat) : Expanded := roundKeyOf c (chainAfter c k r)

end Sys2Proof.Machine
end

