-- ==== Sys2Proof/Machine/Substitution.lean ====
section
/-! DEFINITION. The S-box ROMs (20_memory.md R74) and the substitution stage (42_substitution.md). -/

namespace Sys2Proof.Machine

/-- `SboxRead(box, row, col)` = `bits_4(box[row][col])`; every row and column is in range (20_memory.md R74). -/
def sboxRead (box : BitVec 2 → BitVec 4 → Nat) (row : BitVec 2) (col : BitVec 4) : SboxOut :=
  toBinary (box row col) 4

/-- The ROM's linear address `row * 16 + col`, the spec's own choice on which no rule depends (R74, 93 U27). -/
def romAddress (row : BitVec 2) (col : BitVec 4) : BitVec 6 := row ++ col

/-- The row of a vector: its outer bits, `v[5] ++ v[0]` (42_substitution.md R140, R141). -/
def sboxRow (v : SboxIn) : BitVec 2 := v.extractLsb' 5 1 ++ v.extractLsb' 0 1

/-- The column of a vector: its inner bits, `v[4:1]` (R140, R141; 90_conflicts.md C2). -/
def sboxCol (v : SboxIn) : BitVec 4 := v.extractLsb' 1 4

/-- substituteOne (R140). -/
def substituteOne (box : BitVec 2 → BitVec 4 → Nat) (v : SboxIn) : SboxOut :=
  sboxRead box (sboxRow v) (sboxCol v)

/-- substitute: SBOX_A on the first vector, SBOX_B on the second (R142, R143). -/
def substitute (c : Cfg) (m : Expanded) : HalfBlock :=
  substituteOne c.sboxA (vectorA m) ++ substituteOne c.sboxB (vectorB m)

end Sys2Proof.Machine
end

