-- ==== Sys2Proof/Machine/Feistel.lean ====
section
/-! DEFINITION. The Feistel round (44_feistel_round.md) and the 16-round pass on one block (45_controller.md R200). -/

namespace Sys2Proof.Machine

/-- The round function F (R181): steps 2 to 5 of R180. -/
def roundFunction (c : Cfg) (r : HalfBlock) (rk : Expanded) : HalfBlock :=
  perm8 c (substitute c (xorBits (expandHalf c r) rk))

/-- FeistelRound.apply (R180): the old right half is the new left half, and the left half is combined with F (R182). -/
def feistelRound (c : Cfg) (b : Block) (rk : Expanded) : Block :=
  rightHalf b ++ xorBits (roundFunction c (rightHalf b) rk) (leftHalf b)

/-- The block after rounds 1..`r` of a pass on `b` under key `k` (45_controller.md R200). -/
def blockAfter (c : Cfg) (k : Key) (b : Block) : Nat → Block
  | 0     => b
  | r + 1 => feistelRound c (blockAfter c k b r) (roundKey c k (r + 1))

/-- encryptBlock(B, K): all ROUND_COUNT rounds, with no initial or final permutation (R200, R186). -/
def encryptBlock (c : Cfg) (b : Block) (k : Key) : Block := blockAfter c k b c.roundCount

end Sys2Proof.Machine
end

