-- ==== Sys2Proof/WellFormed.lean ====
section
/-! DEFINITION. Well-formedness. A term of `Instr` carries its operand at the width of its field (30_encoding.md R94),
so every `Instr` is well formed and has no check. What can be ill formed is (1) a configuration record, with the nine
named checks of 00_scope.md R27, and (2) an operand number a host writes before it is a field (30_encoding.md R100,
40_bit_encoder.md R116). -/

namespace Sys2Proof

/-- The nine named checks of 00_scope.md R27. -/
inductive CfgCheck where
  | eLen | eRange | pLen | pRange | kLen | kRange | shiftRange | rounds | sboxRange
  deriving DecidableEq, Repr

/-- The causes the source gives ConfigurationError, and the spec's own (60_exceptions.md R263). -/
inductive ConfigCause where
  /-- "a table's indices reference out-of-range positions". -/
  | indexOutOfRange
  /-- "table widths are incompatible with a given stage's required input/output width". -/
  | widthIncompatible
  /-- An S-box entry outside [0,15]. -/
  | sboxEntryOutOfRange
  /-- The spec's own checks, of the shift set and the round count. -/
  | ownCheck
  deriving DecidableEq, Repr

namespace CfgCheck

/-- Every check, in the order of R27. -/
def all : List CfgCheck :=
  [.eLen, .eRange, .pLen, .pRange, .kLen, .kRange, .shiftRange, .rounds, .sboxRange]

/-- Which cause of ConfigurationError a failed check stands for (60_exceptions.md R263). -/
def cause : CfgCheck → ConfigCause
  | .eRange | .pRange | .kRange => .indexOutOfRange
  | .eLen | .pLen | .kLen       => .widthIncompatible
  | .sboxRange                  => .sboxEntryOutOfRange
  | .shiftRange | .rounds       => .ownCheck

end CfgCheck

/-- Every entry of a table is a 1-based position into a value of width `w`. -/
def positionsWithin (w : Nat) (t : List Nat) : Bool :=
  t.all fun k => decide (1 ≤ k) && decide (k ≤ w)

/-- Every entry of an S-box, at every row and column, is in 0..15. -/
def sboxInRange (box : BitVec 2 → BitVec 4 → Nat) : Bool :=
  (List.range 4).all fun r => (List.range 16).all fun k => decide (box (BitVec.ofNat 2 r) (BitVec.ofNat 4 k) ≤ 15)

namespace Cfg

/-- Whether one named check of R27 holds of a record. -/
def passes (c : Cfg) : CfgCheck → Bool
  | .eLen       => decide (c.eTable.length = 12)
  | .eRange     => positionsWithin 8 c.eTable
  | .pLen       => decide (c.pTable.length = 8)
  | .pRange     => positionsWithin 8 c.pTable
  | .kLen       => decide (c.kTable.length = 12)
  | .kRange     => positionsWithin 12 c.kTable
  | .shiftRange => positionsWithin 16 c.shift1Set
  | .rounds     => decide (c.roundCount = 16)
  | .sboxRange  => sboxInRange c.sboxA && sboxInRange c.sboxB

/-- A record is well formed exactly when all nine checks hold (R27). Bijectivity is not a check (R27). -/
def wellFormed (c : Cfg) : Bool :=
  CfgCheck.all.all c.passes

/-- The first check a record fails, if any: the reason a build refuses it (60_exceptions.md R263). -/
def firstFailing (c : Cfg) : Option CfgCheck :=
  CfgCheck.all.find? fun k => !c.passes k

end Cfg

/-- A key number an assembler takes: 0..0xFFF (30_encoding.md R100). -/
def keyInRange (n : Nat) : Bool := decide (n ≤ 0xFFF)

/-- A code point the encoder takes: 0..255 (40_bit_encoder.md R110, R116; 30_encoding.md R100). -/
def charInRange (n : Nat) : Bool := decide (n ≤ 255)

end Sys2Proof
end

