-- ==== Sys2Proof/Machine/State.lean ====
section
/-! DEFINITION. The state of the core (10_state.md R31), the pins the host drives, the observation of a run, and the
reset state (R49). Plain data. -/

namespace Sys2Proof.Machine

/-- CST, the controller state (10_state.md R40). The encoding 0b11 is never reached and has no constructor (R50,
93 U26; log entry 7). -/
inductive Cst where
  | idle | run | out
  deriving DecidableEq, Repr

/-- The input pins as one rising edge samples them (10_state.md R46, 45_controller.md R201). -/
structure Inputs where
  rst      : Bool
  cmdValid : Bool
  cmd      : Word
  outReady : Bool
  deriving DecidableEq, Repr

/-- One delivered pair (word, short flag) (45_controller.md R206). -/
structure OutWord where
  data  : Word
  short : Bool
  deriving DecidableEq, Repr

/-- The state: the nine registers of 10_state.md R31, then three fields of the model's own. -/
structure State where
  /-- CST, R40. -/
  cst     : Cst
  /-- RCNT, R41: rounds completed on the block in flight. -/
  rcnt    : BitVec 5
  /-- KEY, R32. -/
  key     : Key
  /-- BLOCK, R33. -/
  block   : Block
  /-- KCHAIN, R34. -/
  kchain  : Key
  /-- BUF, R35. -/
  buf     : Char8
  /-- HALF, R36. -/
  half    : Bool
  /-- SHORT, R37. -/
  short   : Bool
  /-- ERR_ILL, R38. -/
  errIll  : Bool
  /-- The model's own: what the host drives at the coming edges, the next edge first (log entries 1 and 2). -/
  inputs  : List Inputs
  /-- The model's own: the pairs delivered so far, the first first (45_controller.md R206, R209; log entry 4). -/
  emitted : List OutWord
  /-- The model's own: how many edges have passed, which picks the free values of the pins (log entry 5). -/
  edges   : Nat
  deriving DecidableEq, Repr

/-- Why the machine stops with a fault: never. The spec names no stop of the core, and IllegalCommand is defined
behaviour, "not a model fault" (60_exceptions.md R276). -/
inductive Fault where
  deriving DecidableEq, Repr

/-- Why a step has no meaning. -/
inductive Refusal where
  /-- An instruction without a meaning; raised by exec's arms only, and by none of them now. Safe: nothing runs. -/
  | notModelled (mnemonic : String)
  /-- An ill-formed configuration record is refused when the core is built and defines no step (00_scope.md R27,
  60_exceptions.md R263, R276); raised by `stepOf`. Safe: nothing runs. -/
  | configurationError (check : CfgCheck)
  deriving DecidableEq, Repr

/-- The state after the reset edge (10_state.md R49), with no pin values placed, nothing delivered and no edge
counted (log entries 2, 4, 5). -/
def State.reset : State where
  cst     := .idle
  rcnt    := 0#5
  key     := 0x000#12
  block   := 0x0000#16
  kchain  := 0x000#12
  buf     := 0x00#8
  half    := false
  short   := false
  errIll  := false
  inputs  := []
  emitted := []
  edges   := 0

end Sys2Proof.Machine
end

