-- ==== Sys2Proof/Machine/Flags.lean ====
section
/-! DEFINITION. The flags and the status word. The core has no condition codes (10_state.md R39): its flags are HALF,
SHORT and ERR_ILL, and BUSY and OUTV are functions of CST (R39, R45). HALF and SHORT are written by the operations of
Machine/Ops.lean that also write the registers they go with. -/

namespace Sys2Proof.Machine

/-- The 2-bit encoding of CST (10_state.md R40). -/
def Cst.code : Cst → BitVec 2
  | .idle => 0b00#2
  | .run  => 0b01#2
  | .out  => 0b10#2

/-- BUSY: 1 when CST = RUN (R45). -/
def busy (s : State) : Bool := decide (s.cst = .run)

/-- OUTV: 1 when CST = OUT (R45); equals `out_valid` (R47). -/
def outv (s : State) : Bool := decide (s.cst = .out)

/-- The status word, in the order of R45's pseudocode, most significant part first. -/
def status (s : State) : BitVec 16 :=
  0b000000#6 ++ (s.rcnt ++ (BitVec.ofBool s.errIll ++ (BitVec.ofBool s.short ++
    (BitVec.ofBool s.half ++ (BitVec.ofBool (outv s) ++ BitVec.ofBool (busy s))))))

/-- `ERR_ILL <- 1` (60_exceptions.md R262). -/
def setErrIll (s : State) : State := { s with errIll := true }

/-- `ERR_ILL <- 0` (46_commands.md R234). -/
def clearErrIll (s : State) : State := { s with errIll := false }

end Sys2Proof.Machine
end

