-- ==== Sys2Proof/Machine/Ports.lean ====
section
/-! DEFINITION. The ports (10_state.md R46): the output pins as functions of state (R47), the input pins of the next
edge, and the two handshakes (92 D6, D13). -/

namespace Sys2Proof.Machine

/-- `cmd_ready = (CST = IDLE)` (R47). -/
def cmdReady (s : State) : Bool := decide (s.cst = .idle)

/-- `out_valid = (CST = OUT)` (R47). -/
def outValid (s : State) : Bool := decide (s.cst = .out)

/-- What the hardware drives on `out_data` at all times: BLOCK (R47, 92 D31). -/
def drivenOutData (s : State) : Word := s.block

/-- What the hardware drives on `out_short` at all times: SHORT (R47, 92 D31). -/
def drivenOutShort (s : State) : Bool := s.short

/-- `out_data` as the host contract gives it: BLOCK while `out_valid = 1`, any value otherwise (R47). Log entry 5. -/
def outData (s : State) : Word :=
  if outValid s then drivenOutData s else Config.freeOutData s.edges s.block

/-- `out_short` as the host contract gives it: SHORT while `out_valid = 1`, any value otherwise (R47). Log entry 5. -/
def outShort (s : State) : Bool :=
  if outValid s then drivenOutShort s else Config.freeOutShort s.edges s.short

/-- A host that drives nothing: every input pin 0. -/
def Inputs.silent : Inputs where
  rst      := false
  cmdValid := false
  cmd      := 0x0000#16
  outReady := false

/-- The input pins at the next edge: the first placed value, and a silent host when none is placed. Log entry 2. -/
def pins (s : State) : Inputs := s.inputs.headD Inputs.silent

/-- A command is accepted at the next edge: `rst = 0`, `cmd_valid = 1`, `cmd_ready = 1` (92 D6, 70 R298). -/
def commandAccepted (s : State) : Bool := !(pins s).rst && (pins s).cmdValid && cmdReady s

/-- An output word is delivered at the next edge: `rst = 0`, `out_valid = 1`, `out_ready = 1` (92 D13). -/
def wordDelivered (s : State) : Bool := !(pins s).rst && outValid s && (pins s).outReady

end Sys2Proof.Machine
end

