-- ==== Sys2Proof/Machine/Ops.lean ====
section
/-! DEFINITION. The named operations on the registers. Each is one action of the spec: every read sees the value
before the edge, and a register an operation does not name keeps its value (00_scope.md R9). -/

namespace Sys2Proof.Machine

/-- What passing an edge does around every action: the edge's pin values are used up and the edge is counted.
No register changes (log entries 1 and 5). -/
def clocked (s : State) : State := { s with inputs := s.inputs.tail, edges := s.edges + 1 }

/-- No register changes: NOP (46_commands.md R230), FLUSH with nothing pending (R233). -/
def skip (s : State) : State := s

/-- `KEY <- k` (46_commands.md R231). -/
def writeKey (k : Key) (s : State) : State := { s with key := k }

/-- `BUF <- c ; HALF <- 1`: a first character waits for its partner (46_commands.md R232). -/
def holdChar (c : Char8) (s : State) : State := { s with buf := c, half := true }

/-- `start(blk, short)`: a block enters the rounds, and the key chain restarts from KEY (45_controller.md R202). -/
def start (blk : Block) (short : Bool) (s : State) : State :=
  { s with block := blk, kchain := s.key, rcnt := 0#5, short := short, half := false, buf := 0x00#8, cst := .run }

/-- `raise IllegalCommand(cw)`: the core's one exception. It sets ERR_ILL and nothing else: no state is saved, no
mode changes, control does not move and the word is not recorded (60_exceptions.md R260, R262, R267). -/
def raiseIllegalCommand (_cw : Word) (s : State) : State := setErrIll s

/-- What there is of a return from the exception: ERR_ILL is cleared, by CLRERR (60_exceptions.md R268). -/
def acknowledgeIllegalCommand (s : State) : State := clearErrIll s

/-- `emit(w, f)`: the pair joins the core's output sequence (45_controller.md R206; 00_scope.md R10). -/
def emit (w : Word) (f : Bool) (s : State) : State := { s with emitted := s.emitted ++ [⟨w, f⟩] }

/-- The reset action: every register takes its value of 10_state.md R49, and the block in flight or a pending
character is discarded without being emitted (70_reset_and_hazards.md R290, R291). What the host does at later edges
and what it has already taken are not registers and stay. -/
def resetRegisters (s : State) : State :=
  { State.reset with inputs := s.inputs, emitted := s.emitted, edges := s.edges }

/-- Idle: in IDLE with `cmd_valid = 0`, no register changes (45_controller.md R203). -/
def idleEdge (s : State) : State := s

/-- Hold: in OUT with `out_ready = 0`, no register changes (45_controller.md R205). -/
def holdOutput (s : State) : State := s

/-- The round step: round r = RCNT + 1 of the block in flight (45_controller.md R204). -/
def roundStep (c : Cfg) (s : State) : State :=
  let r := s.rcnt.toNat + 1
  let next := advanceChain c s.kchain r
  { s with
    kchain := next
    block  := feistelRound c s.block (roundKeyOf c next)
    rcnt   := BitVec.ofNat 5 r
    cst    := if r = c.roundCount then .out else s.cst }

/-- The finished block's registers are cleared and the core is idle again: the writes of 45_controller.md R206. -/
def retire (s : State) : State :=
  { s with cst := .idle, rcnt := 0#5, block := 0x0000#16, kchain := 0x000#12, short := false }

/-- Deliver: the host takes the finished block (45_controller.md R206). -/
def deliver (s : State) : State := retire (emit s.block s.short s)

end Sys2Proof.Machine
end

