-- ==== Sys2Proof/Machine/Commands.lean ====
section
/-! DEFINITION. The meanings of the five commands (46_commands.md R230 to R234), each taken at the edge that accepts
the word. No command faults or raises an exception; a word with a nonzero reserved field is no command at all (R235). -/

namespace Sys2Proof.Machine

/-- NOP (R230): no register changes. -/
def execNop (s : State) : Host.Outcome State Fault Refusal := .next (skip s)

/-- SETKEY k (R231): KEY takes the 12-bit operand as it stands. -/
def execSetkey (key : Key) (s : State) : Host.Outcome State Fault Refusal := .next (writeKey key s)

/-- PUTCH c (R232): the first character of a pair waits in BUF, the second starts the block of the pair. -/
def execPutch (char : Char8) (s : State) : Host.Outcome State Fault Refusal :=
  if s.half then .next (start (pairBlock s.buf char) false s) else .next (holdChar char s)

/-- FLUSH (R233): a pending character starts a short block; with none pending nothing happens. -/
def execFlush (s : State) : Host.Outcome State Fault Refusal :=
  if s.half then .next (start (shortBlock s.buf) true s) else .next (skip s)

/-- CLRERR (R234): ERR_ILL is cleared. -/
def execClrerr (s : State) : Host.Outcome State Fault Refusal := .next (acknowledgeIllegalCommand s)

end Sys2Proof.Machine
end

