-- ==== Sys2Proof/Machine/Dispatch.lean ====
section
/-! DEFINITION. The dispatch of a command to its meaning (46_commands.md R236, its arms of `decode`'s commands). -/

namespace Sys2Proof.Machine

def exec (i : Instr) (s : State) : Host.Outcome State Fault Refusal :=
  match i with
  | .nop => Sys2Proof.Machine.execNop s
  | .setkey key => Sys2Proof.Machine.execSetkey key s
  | .putch char => Sys2Proof.Machine.execPutch char s
  | .flush => Sys2Proof.Machine.execFlush s
  | .clrerr => Sys2Proof.Machine.execClrerr s

end Sys2Proof.Machine
end

