-- ==== Sys2Proof/Machine/Errors.lean ====
section
/-! DEFINITION. The error classes of 60_exceptions.md R260 to R264. -/

namespace Sys2Proof.Machine

/-- The error classes (R260). -/
inductive ErrorClass where
  /-- An illegal word accepted in IDLE. -/
  | illegalCommand
  /-- A configuration record that fails a check of 00_scope.md R27: refused at the build. -/
  | configurationError
  /-- Never raised: the widths are fixed (R264). -/
  | malformedInputError
  deriving DecidableEq, Repr

/-- The code of an error class, where it has one (R260). -/
def ErrorClass.code : ErrorClass → Option Nat
  | .illegalCommand      => some 1
  | .configurationError  => none
  | .malformedInputError => none

/-- What the status word records of the run-time error classes: only IllegalCommand, as ERR_ILL (R260). -/
def recorded (s : State) : Option ErrorClass := if s.errIll then some .illegalCommand else none

/-- Building a core from a record: an ill-formed record is refused by the first check it fails (R263). -/
def buildRefusal (c : Cfg) : Option Refusal := c.firstFailing.map .configurationError

end Sys2Proof.Machine
end

