-- ==== Sys2Proof/Machine/Tables.lean ====
section
/-! DEFINITION. This hardware's configuration record (00_scope.md R20 to R26). The S-box contents are OPEN and come
from the opaque constants of Config.lean (R25; log entry 6). -/

namespace Sys2Proof.Machine

/-- E_TABLE (R20), entry 1 first. -/
def eTable : List Nat := [8, 1, 2, 3, 4, 5, 4, 5, 6, 7, 8, 1]

/-- P_TABLE (R21), entry 1 first. -/
def pTable : List Nat := [2, 8, 4, 7, 6, 5, 3, 1]

/-- K_TABLE (R22), entry 1 first. -/
def kTable : List Nat := [8, 7, 1, 4, 10, 5, 3, 9, 2, 12, 6, 11]

/-- SHIFT1_SET (R23): the rounds whose rotation amount is 1. -/
def shift1Set : List Nat := [1, 2, 9, 16]

/-- ROUND_COUNT (R24). -/
def roundCount : Nat := 16

/-- The integers of a ROM that holds 4-bit entries. -/
def romOf (box : BitVec 2 → BitVec 4 → SboxOut) : BitVec 2 → BitVec 4 → Nat := fun row col => (box row col).toNat

/-- This hardware's CFG (R26), its S-boxes open (R25). -/
def hardwareCfg : Cfg where
  eTable     := eTable
  pTable     := pTable
  kTable     := kTable
  shift1Set  := shift1Set
  roundCount := roundCount
  sboxA      := romOf Config.sboxA
  sboxB      := romOf Config.sboxB

/-- This hardware's tables with named S-box contents, for a claim that names them as a premise (R25, 92 D4). -/
def hardwareWith (sboxA sboxB : BitVec 2 → BitVec 4 → Nat) : Cfg :=
  { hardwareCfg with sboxA := sboxA, sboxB := sboxB }

/-- The test configuration TC0 of 95_test_vectors.md: a test input, no claim about the S-boxes (92 D34). -/
def tc0 : Cfg := hardwareWith (fun _ col => col.toNat) (fun _ col => col.toNat)

/-- The test configuration TC1 of 95_test_vectors.md (92 D34). -/
def tc1 : Cfg :=
  hardwareWith (fun row col => (3 * col.toNat + 5 * row.toNat) % 16)
    (fun row col => (5 * col.toNat + 3 * row.toNat + 7) % 16)

end Sys2Proof.Machine
end

