-- ==== Sys2Proof/Machine/Clock.lean ====
section
/-! DEFINITION. One rising edge of `clk` for a core built from a configuration record (45_controller.md R201), and the
placing of a command on the pins. Machine/Step.lean takes this hardware's record. -/

namespace Sys2Proof.Machine

/-- `exec(decode(cw))`: the accepted word's command, or the exception of an illegal word (46_commands.md R235, R236). -/
def execWord (cw : Word) (s : State) : Host.Outcome State Fault Refusal :=
  match decode cw with
  | .command i => exec i s
  | .illegal _ => .next (raiseIllegalCommand cw s)

/-- The action of one edge whose pin values are `p`, chosen by `rst` and then by CST (R201; 60_exceptions.md R266).
`cmd` is read only in IDLE with `cmd_valid = 1`, `out_ready` only in OUT. -/
def edgeAction (c : Cfg) (p : Inputs) (s : State) : Host.Outcome State Fault Refusal :=
  if p.rst then .next (resetRegisters s)
  else
    match s.cst with
    | .idle => if p.cmdValid then execWord p.cmd s else .next (idleEdge s)
    | .run  => .next (roundStep c s)
    | .out  => if p.outReady then .next (deliver s) else .next (holdOutput s)

/-- One edge of a core built from the well-formed record `c` (R201). -/
def coreStep (c : Cfg) (s : State) : Host.Outcome State Fault Refusal := edgeAction c (pins s) (clocked s)

/-- One edge of the core a build gives for the record `c`: an ill-formed record gives no core, so it has no step
(00_scope.md R27, 60_exceptions.md R263, R276). -/
def stepOf (c : Cfg) (s : State) : Host.Outcome State Fault Refusal :=
  match buildRefusal c with
  | some r => .refused r
  | none   => coreStep c s

/-- The pins of an edge at which a host offers the command word `cw`. -/
def offering (cw : Word) (p : Inputs) : Inputs := { p with rst := false, cmdValid := true, cmd := cw }

/-- The state in which the next edge accepts `cw`: it is on the pins, and the controller waits for commands. Log
entry 3. -/
def offerNext (cw : Word) (s : State) : State :=
  { s with cst := .idle, inputs := offering cw (pins s) :: s.inputs.tail }

end Sys2Proof.Machine
end

