-- ==== Sys2Proof/Machine/Step.lean ====
section
/-! DEFINITION. The step of this hardware: one rising edge (45_controller.md R201). -/

namespace Sys2Proof.Machine

/-- One rising edge of this hardware's core, whose record is well formed (00_scope.md R26, R27). -/
def step (s : State) : Host.Outcome State Fault Refusal := coreStep hardwareCfg s

/-- `s` with the table word offered on the command port at the next edge, in IDLE, the one state that accepts a
command (45_controller.md R201, R208). The core fetches nothing (10_state.md R40): its commands come from the pins.
Log entries 3 and 15. -/
def State.withFetchWord (s : State) (nbits w : Nat) : State := offerNext (tableWord nbits w) s

end Sys2Proof.Machine
end

