-- ==== Sys2Proof/Machine/BitEncoder.lean ====
section
/-! DEFINITION. The bit-encoder and block segmentation (40_bit_encoder.md), and the source's encrypt over a whole text
(45_controller.md R200). The source's functions work on sequences of bits; the hardware forms blocks from characters,
and that the two agree is a claim, not a definition. -/

namespace Sys2Proof.Machine

/-- encodeChar: the 8-bit value of a code point 0..255; a larger one is refused at the host boundary (R110, R116). -/
def encodeChar (n : Nat) : Option Char8 := if charInRange n then some (toBinary n 8) else none

/-- A text of code points as characters, refused when one is above 255 (R116). -/
def encodeText : List Nat → Option (List Char8)
  | []      => some []
  | n :: ns =>
    match encodeChar n, encodeText ns with
    | some c, some cs => some (c :: cs)
    | _, _            => none

/-- encode: the bits of the characters, concatenated in character order (R111). -/
def encodeBits (text : List Char8) : List Bool := text.flatMap toSeq

/-- `ceil(b / 16)` for a sequence of `b` bits: how many chunks it has (R112). -/
def chunkCount (b : Nat) : Nat := (b + 15) / 16

/-- segment: consecutive 16-bit chunks, left to right; the last may be short (R112). -/
def segmentBits (bits : List Bool) : List (List Bool) :=
  (List.range (chunkCount bits.length)).map fun k => (bits.drop (16 * k)).take 16

/-- A chunk as a block with its short flag: a short chunk is filled with zero bits on the right (R113, R114). -/
def chunkBlock (chunk : List Bool) : Block × Bool :=
  (ofSeq 16 (chunk ++ List.replicate (16 - chunk.length) false), decide (chunk.length < 16))

/-- The blocks of a text through the source's functions: `segment(encode(text), 16)`, the short chunk filled (R112 to
R114). -/
def textBlocks (text : List Char8) : List (Block × Bool) := (segmentBits (encodeBits text)).map chunkBlock

/-- The blocks of a text as the hardware forms them: pairs of characters in arrival order, and a last single
character as a short block (R113, R114; 20_memory.md R75). -/
def formedBlocks : List Char8 → List (Block × Bool)
  | []              => []
  | [c0]            => [(shortBlock c0, true)]
  | c0 :: c1 :: cs  => (pairBlock c0 c1, false) :: formedBlocks cs

/-- encrypt: the pass on every block of a text, independently and in order, with each block's short flag
(45_controller.md R200, 20_memory.md R80). -/
def encryptText (c : Cfg) (text : List Char8) (k : Key) : List (Word × Bool) :=
  (textBlocks text).map fun b => (encryptBlock c b.1 k, b.2)

/-- The output bit string a host writes from delivered words: 16 bits a word, bit 15 first, in delivery order
(20_memory.md R72, 92 D14). -/
def outputBits (words : List Word) : List Bool := words.flatMap toSeq

end Sys2Proof.Machine
end

