-- ==== Sys2Proof/Machine/HostSide.lean ====
section
/-! DEFINITION. The host's side of the ports: the pseudo-commands (30_encoding.md R101), the boot and message
protocols (70_reset_and_hazards.md R296, R297), and the pin values of a host that keeps presenting its next word until
it is taken and takes every output word at once (R298; log entry 12). The core sees only the pins. -/

namespace Sys2Proof.Machine

/-- The pseudo-commands of 30_encoding.md R101. -/
inductive Pseudo where
  /-- `BLOCK <0xHHHH>`. -/
  | block (word : Word)
  /-- `TEXT "<s>"`, its characters as code points. -/
  | text (chars : List Char8)
  /-- `KEY <key>`. -/
  | key (key : Key)
  deriving DecidableEq, Repr

/-- The commands a pseudo-command expands to (R101). -/
def Pseudo.expand : Pseudo → List Instr
  | .block w  => [.putch (leftHalf w), .putch (rightHalf w)]
  | .text cs  => cs.map .putch ++ [.flush]
  | .key k    => [.setkey k]

/-- The words of a message: one PUTCH per character, then FLUSH (70 R297). -/
def messageWords (chars : List Char8) : List Word := (Pseudo.text chars).expand.map encode

/-- The pins of a host that offers `cw` and is ready to take an output word. -/
def presenting (cw : Word) : Inputs where
  rst      := false
  cmdValid := true
  cmd      := cw
  outReady := true

/-- The pins of a host that asserts reset. -/
def resetting : Inputs := { Inputs.silent with rst := true }

/-- The pins of a host that is ready to take an output word, and offers the next word if it has one (70 R298). -/
def awaiting : List Word → Inputs
  | []      => { Inputs.silent with outReady := true }
  | cw :: _ => presenting cw

/-- Whether an accepted word starts a block, by the flag HALF before it (46_commands.md R232, R233). -/
def startsBlock (half : Bool) (cw : Word) : Bool :=
  match decode cw with
  | .command (.putch _) => half
  | .command .flush     => half
  | _                   => false

/-- The flag HALF after an accepted word (R232, R233). -/
def halfAfter (half : Bool) (cw : Word) : Bool :=
  match decode cw with
  | .command (.putch _) => !half
  | .command .flush     => false
  | _                   => half

/-- The pin values of a host that sends the words in order from IDLE: a word that starts a block is followed by the
16 edges of its rounds and the edge of its delivery, at which no word is taken (70 R298, R300). -/
def schedule : Bool → List Word → List Inputs
  | _, []          => []
  | half, cw :: ws =>
    presenting cw :: ((if startsBlock half cw then List.replicate 17 (awaiting ws) else []) ++
      schedule (halfAfter half cw) ws)

/-- The boot sequence: reset for an edge, then SETKEY (70 R296). -/
def bootSchedule (k : Key) : List Inputs := resetting :: schedule false [encode (.setkey k)]

/-- The pin values of a message sent from HALF = 0 (70 R297). -/
def messageSchedule (chars : List Char8) : List Inputs := schedule false (messageWords chars)

end Sys2Proof.Machine
end

