-- ==== Sys2Proof/Safety.lean ====
section
/-! DEFINITION. The terms claims use: the invariants of 10_state.md R50, runs of many edges, the observation and the
end of a run (45_controller.md R209), and the testers' inverse of a pass (44_feistel_round.md R187). -/

namespace Sys2Proof

namespace Machine

/-- The five invariants of 10_state.md R50. That CST ≠ 0b11 is its type (log entry 7). -/
abbrev State.Inv (s : State) : Prop :=
  s.rcnt.toNat ≤ 16 ∧
  (s.cst = .idle → s.rcnt = 0#5 ∧ s.block = 0x0000#16 ∧ s.kchain = 0x000#12 ∧ s.short = false) ∧
  (s.cst = .run → s.rcnt.toNat ≤ 15 ∧ s.half = false) ∧
  (s.cst = .out → s.rcnt = 16#5 ∧ s.half = false) ∧
  (s.half = false → s.buf = 0x00#8)

/-- `t` is `u` in every register and in what was delivered. The fields left out, `inputs` and `edges`, are the model's
own clock and pins (log entries 1 and 5). -/
abbrev SameButClock (t u : State) : Prop := t = { u with inputs := t.inputs, edges := t.edges }

/-- `k` edges of a core built from `c`. -/
def runEdges (c : Cfg) : Nat → State → Host.Outcome State Fault Refusal
  | 0, s     => .next s
  | k + 1, s =>
    match coreStep c s with
    | .next t    => runEdges c k t
    | .fault f   => .fault f
    | .refused r => .refused r

/-- The pin values of the edge `k` edges ahead (0 is the next edge); a silent host past the placed values. -/
def pinsAt (k : Nat) (s : State) : Inputs := s.inputs.getD k Inputs.silent

/-- The host asserts no reset at the next `k` edges. -/
abbrev NoReset (k : Nat) (s : State) : Prop := ∀ j, j < k → (pinsAt j s).rst = false

/-- The host of a block that has just started: no reset, and it leaves the finished block waiting for `n` edges
before it takes it (45_controller.md R205, R206). -/
abbrev TakenAfter (n : Nat) (s : State) : Prop :=
  NoReset (17 + n) s ∧ (∀ j, j < n → (pinsAt (16 + j) s).outReady = false) ∧ (pinsAt (16 + n) s).outReady = true

/-- The observation of a run: the pairs emitted, in order, with the final value of ERR_ILL (45_controller.md R209). -/
def observation (s : State) : List OutWord × Bool := (s.emitted, s.errIll)

/-- The core has nothing in flight and no character pending: what R209 asks of the end of a message. -/
abbrev Settled (s : State) : Prop := s.cst = .idle ∧ s.half = false

/-- The pairs a message's blocks are delivered as. -/
def asOutWords (ws : List (Word × Bool)) : List OutWord := ws.map fun w => ⟨w.1, w.2⟩

/-- The rounds of keys `r`, ..., 1 in that order: the middle of the inverse of 44_feistel_round.md R187. -/
def undoRounds (c : Cfg) (k : Key) : Nat → Block → Block
  | 0, b     => b
  | r + 1, b => undoRounds c k r (feistelRound c b (roundKey c k (r + 1)))

/-- The inverse of a pass, a fact for testers and no function of the core (R187). -/
def undoBlock (c : Cfg) (b : Block) (k : Key) : Block :=
  swapHalves (undoRounds c k c.roundCount (swapHalves b))

end Machine

end Sys2Proof
end

