-- ==== Sys2Proof/Certificates/Slice0/Obligations.lean ====
section
/-! DEFINITION. The statements for the provers, each a `def Obligations.<Name> : Prop`. Each docstring names the rule
of the spec it formalises. Where a statement speaks of the fields `inputs`, `emitted` or `edges`, or of a silent host
past the placed pin values, those are the model's own (log entries 1, 2, 4, 5). -/

open Sys2Proof Sys2Proof.Machine

/-! ## Commands -/

/-- NOP (46_commands.md R230): its one word, the illegal words of its row, and that no register changes. -/
def Obligations.NopChangesNoRegister : Prop :=
  decode 0x0000#16 = .command .nop ∧
  (∀ cw : Word, opField cw = 0x0#4 → argField cw ≠ 0#12 → decode cw = .illegal .nonzeroZ12) ∧
  ∀ s : State, exec .nop s = .next s

/-- SETKEY (46_commands.md R231): its words, KEY and nothing else written, the block a pending character forms under
the new key, and that a block already formed keeps the core from accepting it. -/
def Obligations.SetkeyWritesKeyAndNothingElse : Prop :=
  (∀ k : Key, decode (0x1#4 ++ k) = .command (.setkey k)) ∧
  (∀ (k : Key) (s : State), exec (.setkey k) s = .next { s with key := k }) ∧
  (∀ s : State, exec (.setkey s.key) s = .next s) ∧
  (∀ (k : Key) (char : Char8) (s : State), s.half = true →
    ∃ t u v, exec (.setkey k) s = .next t ∧ exec (.putch char) t = .next u ∧ exec .flush t = .next v ∧
      u.cst = .run ∧ u.kchain = k ∧ v.cst = .run ∧ v.kchain = k) ∧
  (∀ (c : Cfg) (s : State), s.cst ≠ .idle → (pins s).rst = false →
    ∃ t, coreStep c s = .next t ∧ t.key = s.key) ∧
  decode 0x196D#16 = .command (.setkey 0x96D#12)

/-- PUTCH (46_commands.md R232): its words, the illegal words of its row, a first character held in BUF, and a second
that starts the block of the pair under the KEY of that moment, with the example. -/
def Obligations.PutchHoldsOrStartsAPair : Prop :=
  (∀ char : Char8, decode (0x20#8 ++ char) = .command (.putch char)) ∧
  (∀ cw : Word, opField cw = 0x2#4 → z4Field cw ≠ 0#4 → decode cw = .illegal .nonzeroZ4) ∧
  (∀ (char : Char8) (s : State), s.half = false →
    exec (.putch char) s = .next { s with buf := char, half := true }) ∧
  (∀ (char : Char8) (s : State), s.half = true →
    exec (.putch char) s = .next { s with
      block := s.buf ++ char, kchain := s.key, rcnt := 0#5, short := false, half := false, buf := 0x00#8,
      cst := .run }) ∧
  ∀ s : State, s.half = false →
    ∃ t u, execWord 0x2063#16 s = .next t ∧ execWord 0x206F#16 t = .next u ∧ u.cst = .run ∧ u.block = 0x636F#16

/-- FLUSH (46_commands.md R233): its one word, the illegal words of its row, the short block of a pending character,
no effect with none pending, and that two in a row form at most one block. -/
def Obligations.FlushStartsAShortBlockOrNothing : Prop :=
  decode 0x3000#16 = .command .flush ∧
  (∀ cw : Word, opField cw = 0x3#4 → argField cw ≠ 0#12 → decode cw = .illegal .nonzeroZ12) ∧
  (∀ s : State, s.half = true →
    exec .flush s = .next { s with
      block := s.buf ++ 0x00#8, kchain := s.key, rcnt := 0#5, short := true, half := false, buf := 0x00#8,
      cst := .run }) ∧
  (∀ s : State, s.half = false → exec .flush s = .next s) ∧
  (∀ s : State, ∃ t, exec .flush s = .next t ∧ exec .flush t = .next t) ∧
  ∀ s : State, s.half = true → s.buf = 0x63#8 →
    ∃ t, execWord 0x3000#16 s = .next t ∧ t.cst = .run ∧ t.block = 0x6300#16 ∧ t.short = true

/-- CLRERR (46_commands.md R234): its one word, ERR_ILL cleared and nothing else, and a word of its row with a nonzero
field, which sets ERR_ILL instead. -/
def Obligations.ClrerrClearsErrIllAndNothingElse : Prop :=
  decode 0x4000#16 = .command .clrerr ∧
  (∀ s : State, exec .clrerr s = .next { s with errIll := false }) ∧
  (∀ s : State, s.errIll = false → exec .clrerr s = .next s) ∧
  (∀ (cw : Word) (s : State), opField cw = 0x4#4 → argField cw ≠ 0#12 →
    execWord cw s = .next { s with errIll := true }) ∧
  ∀ s : State, ∃ t, execWord 0x4000#16 s = .next t ∧ (status t).getLsbD 4 = false

/-- IllegalCommand (46_commands.md R235, 60_exceptions.md R262): an accepted illegal word sets ERR_ILL and changes
nothing else, whatever the word; the core waits for the next command. -/
def Obligations.IllegalWordSetsErrIllAndNothingElse : Prop :=
  (∀ (cw : Word) (why : IllegalWhy) (s : State), decode cw = .illegal why →
    execWord cw s = .next { s with errIll := true }) ∧
  (∀ (c : Cfg) (why : IllegalWhy) (s : State), (pins s).rst = false → s.cst = .idle → (pins s).cmdValid = true →
    decode (pins s).cmd = .illegal why →
    ∃ t, coreStep c s = .next t ∧ SameButClock t { s with errIll := true } ∧ commandAccepted s = true ∧
      cmdReady t = true) ∧
  ∃ why, decode 0x5000#16 = .illegal why

/-! ## Encoding -/

/-- The opcode map (30_encoding.md R95): a word is the named command exactly when `(cw & mask) = match`, with the
operand the format gives it; the words of an unassigned opcode are no command. -/
def Obligations.WordIsItsRowExactly : Prop :=
  (∀ cw : Word, cw &&& 0xFFFF#16 = 0x0000#16 ↔ decode cw = .command .nop) ∧
  (∀ cw : Word, cw &&& 0xF000#16 = 0x1000#16 ↔ ∃ k, decode cw = .command (.setkey k)) ∧
  (∀ cw : Word, cw &&& 0xFF00#16 = 0x2000#16 ↔ ∃ char, decode cw = .command (.putch char)) ∧
  (∀ cw : Word, cw &&& 0xFFFF#16 = 0x3000#16 ↔ decode cw = .command .flush) ∧
  (∀ cw : Word, cw &&& 0xFFFF#16 = 0x4000#16 ↔ decode cw = .command .clrerr) ∧
  (∀ (cw : Word) (k : Key), decode cw = .command (.setkey k) → k = cw.extractLsb' 0 12) ∧
  (∀ (cw : Word) (char : Char8), decode cw = .command (.putch char) → char = cw.extractLsb' 0 8) ∧
  ∀ cw : Word, 0x5 ≤ (opField cw).toNat → decode cw = .illegal .unassignedOpcode

/-- The illegal words (30_encoding.md R97): exactly the three cases, 61181 of them beside 4355 legal words. -/
def Obligations.IllegalWordsAreExactlyTheThreeCases : Prop :=
  (∀ cw : Word, (∃ why, decode cw = .illegal why) ↔
    (0x5 ≤ (opField cw).toNat ∨
      ((opField cw = 0x0#4 ∨ opField cw = 0x3#4 ∨ opField cw = 0x4#4) ∧ argField cw ≠ 0#12) ∨
      (opField cw = 0x2#4 ∧ z4Field cw ≠ 0#4))) ∧
  (∀ (cw : Word) (why : IllegalWhy) (s : State), decode cw = .illegal why →
    execWord cw s = .next { s with errIll := true }) ∧
  Set.ncard { cw : Word | ∃ i, decode cw = .command i } = 4355 ∧
  Set.ncard { cw : Word | ∃ why, decode cw = .illegal why } = 61181

/-- Decode and encode agree (from 30_encoding.md R91 to R96): every command is read back from its word with every
operand bit, every legal word is its command's word, and no word is both. -/
def Obligations.DecodeAndEncodeAgree : Prop :=
  (∀ i : Instr, decode (encode i) = .command i) ∧
  (∀ (cw : Word) (i : Instr), decode cw = .command i → encode i = cw) ∧
  ∀ i : Instr, decodeTableWord 16 (encode i).toNat = some i

/-- Boundary words of the spec's own vectors (95_test_vectors.md V-D1 to V-D15). -/
def Obligations.BoundaryWordsDecodeAsListed : Prop :=
  decode 0x0000#16 = .command .nop ∧ decode 0x0001#16 = .illegal .nonzeroZ12 ∧
  decode 0x1000#16 = .command (.setkey 0x000#12) ∧ decode 0x1FFF#16 = .command (.setkey 0xFFF#12) ∧
  decode 0x2000#16 = .command (.putch 0x00#8) ∧ decode 0x20FF#16 = .command (.putch 0xFF#8) ∧
  decode 0x2100#16 = .illegal .nonzeroZ4 ∧ decode 0x3000#16 = .command .flush ∧
  decode 0x3800#16 = .illegal .nonzeroZ12 ∧ decode 0x4000#16 = .command .clrerr ∧
  decode 0x4001#16 = .illegal .nonzeroZ12 ∧ decode 0xFFFF#16 = .illegal .unassignedOpcode

/-- The pseudo-commands (30_encoding.md R101): their expansions, and that BLOCK forms the block it names when no
character is pending, while a pending character takes its first PUTCH instead. -/
def Obligations.PseudoCommandsExpandToTheirWords : Prop :=
  (∀ w : Word, ((Pseudo.block w).expand.map encode) =
    [0x20#8 ++ w.extractLsb' 8 8, 0x20#8 ++ w.extractLsb' 0 8]) ∧
  (∀ chars : List Char8, ((Pseudo.text chars).expand.map encode) =
    (chars.map fun char => (0x20#8 ++ char : Word)) ++ [0x3000#16]) ∧
  (∀ k : Key, ((Pseudo.key k).expand.map encode) = [0x1#4 ++ k]) ∧
  (∀ (w : Word) (s : State), s.half = false →
    ∃ t u, exec (.putch (w.extractLsb' 8 8)) s = .next t ∧ exec (.putch (w.extractLsb' 0 8)) t = .next u ∧
      u.cst = .run ∧ u.block = w) ∧
  ∀ (w : Word) (s : State), s.half = true →
    ∃ t, exec (.putch (w.extractLsb' 8 8)) s = .next t ∧ t.cst = .run ∧ t.block = s.buf ++ w.extractLsb' 8 8

/-! ## The edge -/

/-- A step runs the decoded command: in IDLE with a legal word on the port and no reset, the step is exec of the
command, with the pin value used up and the edge counted (from 45_controller.md R201; log entries 1, 3 and 5). -/
def Obligations.StepRunsTheDecodedCommand : Prop :=
  (∀ (s : State) (i : Instr), s.cst = .idle → (pins s).rst = false → (pins s).cmdValid = true →
    decode (pins s).cmd = .command i →
    step s = exec i { s with inputs := s.inputs.tail, edges := s.edges + 1 }) ∧
  ∀ (s : State) (i : Instr),
    step (s.withFetchWord 16 (encode i).toNat) =
      exec i { s with cst := .idle, inputs := s.inputs.tail, edges := s.edges + 1 }

/-- The core's step (45_controller.md R201): the one action of every edge, by which inputs it is chosen, and the
example. What the reset action does is said by ResetGivesEveryRegisterItsValue (log entry 4). -/
def Obligations.EdgeTakesTheActionOfItsState : Prop :=
  ∀ (c : Cfg) (s : State), ∃ t u, coreStep c s = .next t ∧ SameButClock t u ∧
    ((pins s).rst = true → u = resetRegisters s) ∧
    ((pins s).rst = false → s.cst = .idle → (pins s).cmdValid = true → execWord (pins s).cmd s = .next u) ∧
    ((pins s).rst = false → s.cst = .idle → (pins s).cmdValid = false → u = s) ∧
    ((pins s).rst = false → s.cst = .run → u = roundStep c s) ∧
    ((pins s).rst = false → s.cst = .out → (pins s).outReady = true → u = deliver s) ∧
    ((pins s).rst = false → s.cst = .out → (pins s).outReady = false → u = s) ∧
    ((pins s).rst = false → s.cst = .run → s.rcnt = 3#5 → t.rcnt = 4#5 ∧ t.kchain = advanceChain c s.kchain 4)

/-- No edge of this hardware faults or refuses: every input in every state has a next state (from 45_controller.md
R201 "total, deterministic", 60_exceptions.md R276), no command stops either, and every edge uses up one pin value and
is counted (log entries 1 and 5). -/
def Obligations.NoEdgeAndNoCommandStops : Prop :=
  (∀ s : State, ∃ t, step s = .next t) ∧
  (∀ (i : Instr) (s : State), ∃ t, exec i s = .next t) ∧
  ∀ (k : Nat) (s : State), ∃ t, Host.Core.run Sys2Proof.core k s = .next t ∧
    t.edges = s.edges + k ∧ t.inputs = s.inputs.drop k

/-- Idle (45_controller.md R203): in IDLE with `cmd_valid = 0`, no register changes. -/
def Obligations.IdleEdgeChangesNoRegister : Prop :=
  ∀ (c : Cfg) (s : State), (pins s).rst = false → s.cst = .idle → (pins s).cmdValid = false →
    ∃ t, coreStep c s = .next t ∧ SameButClock t s

/-- The round step (45_controller.md R204), written out: the rotation, the selection, the round, the count and the
move to OUT, nothing else; RCNT never exceeds 16; with the example under TC0. -/
def Obligations.RoundStepAdvancesBlockAndChain : Prop :=
  (∀ (c : Cfg) (s : State) (amount : Nat) (next : Key), (pins s).rst = false → s.cst = .run → s.rcnt.toNat ≤ 15 →
    amount = (if s.rcnt.toNat + 1 ∈ c.shift1Set then 1 else 2) →
    next = (s.kchain.extractLsb' 6 6).rotateLeft amount ++ (s.kchain.extractLsb' 0 6).rotateLeft amount →
    ∃ t, coreStep c s = .next t ∧ SameButClock t { s with
      kchain := next
      block := feistelRound c s.block (tableSelect 12 c.kTable next)
      rcnt := BitVec.ofNat 5 (s.rcnt.toNat + 1)
      cst := if s.rcnt.toNat + 1 = c.roundCount then .out else .run }) ∧
  (∀ (c : Cfg) (s : State), c.wellFormed = true → (pins s).rst = false → s.cst = .run → s.rcnt.toNat ≤ 15 →
    ∃ t, coreStep c s = .next t ∧ t.rcnt.toNat = s.rcnt.toNat + 1 ∧ t.rcnt.toNat ≤ 16 ∧
      (s.rcnt = 15#5 → t.cst = .out ∧ t.rcnt = 16#5)) ∧
  ∀ s : State, (pins s).rst = false → s.cst = .run → s.kchain = 0x96D#12 → s.block = 0x636F#16 → s.rcnt = 0#5 →
    ∃ t, coreStep tc0 s = .next t ∧ t.kchain = 0x2DB#12 ∧ t.block = 0x6FE9#16 ∧ t.rcnt = 1#5

/-- Hold (45_controller.md R205): in OUT with `out_ready = 0`, no register changes and the output pins stay. -/
def Obligations.HoldKeepsTheFinishedBlock : Prop :=
  ∀ (c : Cfg) (s : State), (pins s).rst = false → s.cst = .out → (pins s).outReady = false →
    ∃ t, coreStep c s = .next t ∧ SameButClock t s ∧
      outValid t = true ∧ outData t = outData s ∧ outShort t = outShort s

/-- Deliver (45_controller.md R206): the pair on the output pins is emitted, the registers the rule names are cleared
and the others kept, at the first edge in OUT if the host is ready there, with the example. -/
def Obligations.DeliveryEmitsThePairAndGoesIdle : Prop :=
  ∀ (c : Cfg) (s : State), (pins s).rst = false → s.cst = .out → (pins s).outReady = true →
    ∃ t, coreStep c s = .next t ∧
      SameButClock t { s with
        cst := .idle, rcnt := 0#5, block := 0x0000#16, kchain := 0x000#12, short := false,
        emitted := s.emitted ++ [⟨s.block, s.short⟩] } ∧
      t.emitted = s.emitted ++ [⟨outData s, outShort s⟩] ∧
      (s.block = encryptBlock tc0 0x636F#16 0x96D#12 → s.short = false →
        t.emitted = s.emitted ++ [⟨0xA0EC#16, false⟩])

/-- Reset (from 70_reset_and_hazards.md R290, 10_state.md R49): every register takes its reset value, whatever the
state and the other inputs; no command is accepted and no block delivered at that edge. That the pairs emitted before
stay in the output sequence is the model's choice (log entry 4). -/
def Obligations.ResetGivesEveryRegisterItsValue : Prop :=
  (∀ (c : Cfg) (s : State), (pins s).rst = true →
    (∃ t, coreStep c s = .next t ∧ SameButClock t { s with
      cst := .idle, rcnt := 0#5, key := 0x000#12, block := 0x0000#16, kchain := 0x000#12, buf := 0x00#8,
      half := false, short := false, errIll := false }) ∧
    commandAccepted s = false ∧ wordDelivered s = false) ∧
  (∀ (c : Cfg) (s t : State), (pins s).rst = true → coreStep c s = .next t →
    cmdReady t = true ∧ outValid t = false ∧ status t = 0x0000#16) ∧
  cmdReady State.reset = true ∧ outValid State.reset = false ∧ status State.reset = 0x0000#16

/-- Reset held (from 70_reset_and_hazards.md R291, R292): however long `rst = 1` lasts and from whatever state, the
registers are those of reset after every one of those edges, and nothing is emitted. That the pairs emitted before stay
in the output sequence is the model's choice (log entry 4). -/
def Obligations.HeldResetStaysAtTheResetState : Prop :=
  ∀ (c : Cfg) (n : Nat) (s : State), (∀ j, j < n + 1 → (pinsAt j s).rst = true) →
    ∃ t, runEdges c (n + 1) s = .next t ∧
      SameButClock t { State.reset with emitted := s.emitted }

/-! ## Status and pins -/

/-- The status word (from 10_state.md R45): every field at its bits, bits 15:10 zero. -/
def Obligations.StatusWordShowsItsFields : Prop :=
  ∀ s : State,
    (status s).getLsbD 0 = decide (s.cst = .run) ∧ (status s).getLsbD 1 = decide (s.cst = .out) ∧
    (status s).getLsbD 2 = s.half ∧ (status s).getLsbD 3 = s.short ∧ (status s).getLsbD 4 = s.errIll ∧
    (status s).extractLsb' 5 5 = s.rcnt ∧ (status s).extractLsb' 10 6 = 0#6

/-- The output pins (from 10_state.md R47): functions of state; `out_data` and `out_short` mean BLOCK and SHORT while
`out_valid = 1`. Nothing is said of them otherwise (log entry 5). -/
def Obligations.OutputPinsFollowTheState : Prop :=
  ∀ s : State,
    (cmdReady s = true ↔ s.cst = .idle) ∧ (outValid s = true ↔ s.cst = .out) ∧
    drivenOutData s = s.block ∧ drivenOutShort s = s.short ∧
    (outValid s = true → outData s = s.block ∧ outShort s = s.short)

/-- KEY, KCHAIN and BUF are hidden (from 10_state.md R48): no output pin depends on them. For `out_data` and `out_short`
while `out_valid = 0` this is the model's choice: it rests on the arguments of their free values (log entry 5). -/
def Obligations.HiddenRegistersReachNoPin : Prop :=
  ∀ (s : State) (k chain : Key) (char : Char8) (t : State), t = { s with key := k, kchain := chain, buf := char } →
    cmdReady t = cmdReady s ∧ outValid t = outValid s ∧ outData t = outData s ∧ outShort t = outShort s ∧
    status t = status s

/-! ## The datapath -/

/-- Tables (from 00_scope.md R7, 41_bitops.md R120, R121): output element `i` is the input element the entry names,
on sequences and on values; the identity table changes nothing. -/
def Obligations.TableSelectionTakesTheNamedPositions : Prop :=
  (∀ (w : Nat) (table : List Nat) (x : BitVec w) (i : Nat) (h : i < table.length),
    (∀ k ∈ table, 1 ≤ k ∧ k ≤ w) →
    seqElem (tableSelect table.length table x) i = seqElem x (table[i] - 1) ∧
    (tableSelect table.length table x).getLsbD (table.length - 1 - i) = x.getLsbD (w - table[i])) ∧
  ∀ (w : Nat) (x : BitVec w), tableSelect w (List.range' 1 w) x = x

/-- xor and padBinary (from 41_bitops.md R122 to R124), and the address of a ROM entry (20_memory.md R74): element by
element, and with the value kept. -/
def Obligations.XorAndPaddingWorkOnElements : Prop :=
  (∀ (w : Nat) (a b : BitVec w) (i : Nat), seqElem (xorBits a b) i = (seqElem a i != seqElem b i)) ∧
  (∀ (w : Nat) (a b : BitVec w), xorBits a a = 0#w ∧ xorBits a (0#w) = a ∧ xorBits a b = xorBits b a) ∧
  (∀ (numeral : List Bool) (width : Nat), numeral.length ≤ width →
    (padBinary numeral width).length = width ∧ padBinary numeral numeral.length = numeral ∧
    intOf (ofSeq width (padBinary numeral width)) = intOf (ofSeq numeral.length numeral)) ∧
  (∀ n width : Nat, n < 2 ^ width → intOf (toBinary n width) = n) ∧
  (∀ (row : BitVec 2) (col : BitVec 4), intOf (romAddress row col) = 16 * intOf row + intOf col) ∧
  xorBits 0xB5E#12 0x877#12 = 0x329#12 ∧ padBinary [true, false, true] 4 = [false, true, false, true]

/-- The laws of the table selections (41_bitops.md R128): linear over exclusive-or, for every table. -/
def Obligations.TableSelectionsAreLinear : Prop :=
  (∀ (w n : Nat) (table : List Nat) (a b : BitVec w),
    tableSelect n table (a ^^^ b) = tableSelect n table a ^^^ tableSelect n table b) ∧
  (∀ (w n : Nat) (table : List Nat), tableSelect n table (0#w) = 0#n) ∧
  ∀ c : Cfg,
    (∀ a b, expandHalf c (a ^^^ b) = expandHalf c a ^^^ expandHalf c b) ∧
    (∀ a b, perm8 c (a ^^^ b) = perm8 c a ^^^ perm8 c b) ∧
    (∀ a b, ksel c (a ^^^ b) = ksel c a ^^^ ksel c b)

/-- EXPAND (41_bitops.md R125): its wiring, and its corners. -/
def Obligations.ExpandIsWiredAsListed : Prop :=
  (∀ r : HalfBlock, expandHalf hardwareCfg r =
    r.extractLsb' 0 1 ++ (r.extractLsb' 3 5 ++ (r.extractLsb' 3 2 ++ (r.extractLsb' 0 3 ++ r.extractLsb' 7 1)))) ∧
  expandHalf hardwareCfg 0x00#8 = 0x000#12 ∧ expandHalf hardwareCfg 0xFF#8 = 0xFFF#12 ∧
  expandHalf hardwareCfg 0x6F#8 = 0xB5E#12

/-- PERM8 (41_bitops.md R126): its wiring, its corners, that it is a bijection and keeps the number of one bits. -/
def Obligations.Perm8IsWiredAsListed : Prop :=
  (∀ s : HalfBlock, perm8 hardwareCfg s =
    s.extractLsb' 6 1 ++ (s.extractLsb' 0 1 ++ (s.extractLsb' 4 1 ++ (s.extractLsb' 1 1 ++
      (s.extractLsb' 2 1 ++ (s.extractLsb' 3 1 ++ (s.extractLsb' 5 1 ++ s.extractLsb' 7 1))))))) ∧
  Function.Bijective (perm8 hardwareCfg) ∧
  (∀ s : HalfBlock, (toSeq (perm8 hardwareCfg s)).count true = (toSeq s).count true) ∧
  perm8 hardwareCfg 0x00#8 = 0x00#8 ∧ perm8 hardwareCfg 0xFF#8 = 0xFF#8 ∧ perm8 hardwareCfg 0x64#8 = 0x8A#8

/-- KSEL (41_bitops.md R127): its wiring, its corners, and that it is a bijection. -/
def Obligations.KselIsWiredAsListed : Prop :=
  (∀ n : Key, ksel hardwareCfg n =
    n.extractLsb' 4 1 ++ (n.extractLsb' 5 1 ++ (n.extractLsb' 11 1 ++ (n.extractLsb' 8 1 ++
      (n.extractLsb' 2 1 ++ (n.extractLsb' 7 1 ++ (n.extractLsb' 9 1 ++ (n.extractLsb' 3 1 ++
        (n.extractLsb' 10 1 ++ (n.extractLsb' 0 1 ++ (n.extractLsb' 6 1 ++ n.extractLsb' 1 1))))))))))) ∧
  Function.Bijective (ksel hardwareCfg) ∧
  ksel hardwareCfg 0x000#12 = 0x000#12 ∧ ksel hardwareCfg 0xFFF#12 = 0xFFF#12 ∧ ksel hardwareCfg 0x2DB#12 = 0x877#12

/-- substituteOne and its addressing (42_substitution.md R140, R141): the row is the outer pair, the column the inner
four, and all six bits are used. -/
def Obligations.SboxIsAddressedByOuterAndInnerBits : Prop :=
  (∀ (box : BitVec 2 → BitVec 4 → Nat) (v : SboxIn), substituteOne box v =
    BitVec.ofNat 4 (box (v.extractLsb' 5 1 ++ v.extractLsb' 0 1) (v.extractLsb' 1 4))) ∧
  (∀ v : SboxIn, (sboxRow v).toNat = 2 * (v.getLsbD 5).toNat + (v.getLsbD 0).toNat ∧
    (sboxCol v).toNat = 8 * (v.getLsbD 4).toNat + 4 * (v.getLsbD 3).toNat + 2 * (v.getLsbD 2).toNat +
      (v.getLsbD 1).toNat) ∧
  (∀ u v : SboxIn, sboxRow u = sboxRow v → sboxCol u = sboxCol v → u = v) ∧
  sboxRow 0b001100#6 = 0#2 ∧ sboxCol 0b001100#6 = 6#4

/-- Lanes (42_substitution.md R144): SBOX_A serves the high bits and SBOX_B the low bits, and neither lane reads the
other's. -/
def Obligations.SubstitutionLanesDoNotInteract : Prop :=
  (∀ (c : Cfg) (m : Expanded),
    (substitute c m).extractLsb' 4 4 = substituteOne c.sboxA (m.extractLsb' 6 6) ∧
    (substitute c m).extractLsb' 0 4 = substituteOne c.sboxB (m.extractLsb' 0 6)) ∧
  (∀ (c : Cfg) (m n : Expanded), m.extractLsb' 6 6 = n.extractLsb' 6 6 →
    (substitute c m).extractLsb' 4 4 = (substitute c n).extractLsb' 4 4) ∧
  ∀ (c : Cfg) (m n : Expanded), m.extractLsb' 0 6 = n.extractLsb' 0 6 →
    (substitute c m).extractLsb' 0 4 = (substitute c n).extractLsb' 0 4

/-- Contents of the ROMs (from 42_substitution.md R145, 20_memory.md R74): under a well-formed record the 4-bit lookup
result is the whole entry, at every row and column. -/
def Obligations.WellFormedLookupsFitFourBits : Prop :=
  ∀ (c : Cfg) (row : BitVec 2) (col : BitVec 4), c.wellFormed = true →
    (sboxRead c.sboxA row col).toNat = c.sboxA row col ∧ (sboxRead c.sboxB row col).toNat = c.sboxB row col

/-- rotateLeft (43_key_schedule.md R160): on elements and on values, its fixed points, and that six rotations by one
change nothing. -/
def Obligations.RotationMovesElementsLeft : Prop :=
  (∀ (h : KeyHalf) (amount i : Nat), i < 6 →
    seqElem (rotateHalf h amount) i = seqElem h ((i + amount) % 6)) ∧
  (∀ h : KeyHalf, rotateHalf h 1 = h.extractLsb' 0 5 ++ h.extractLsb' 5 1 ∧
    rotateHalf h 2 = h.extractLsb' 0 4 ++ h.extractLsb' 4 2) ∧
  (∀ amount : Nat, rotateHalf 0b000000#6 amount = 0b000000#6 ∧ rotateHalf 0b111111#6 amount = 0b111111#6) ∧
  rotateHalf 0b010101#6 2 = 0b010101#6 ∧ rotateHalf 0b101010#6 2 = 0b101010#6 ∧
  rotateHalf 0b010101#6 1 = 0b101010#6 ∧ rotateHalf 0b101010#6 1 = 0b010101#6 ∧
  (∀ h : KeyHalf, (fun x => rotateHalf x 1)^[6] h = h) ∧
  rotateHalf 0b100101#6 1 = 0b001011#6

/-- The key schedule's closed form (from 43_key_schedule.md R165): the state after round `r` is KEY with both halves
rotated by the cumulative amount mod 6, for every record; and this hardware's cumulative amounts. -/
def Obligations.KeyScheduleHasItsClosedForm : Prop :=
  (∀ (c : Cfg) (k : Key) (r : Nat),
    chainAfter c k r = (k.extractLsb' 6 6).rotateLeft (cumulativeShift c r % 6) ++
      (k.extractLsb' 0 6).rotateLeft (cumulativeShift c r % 6) ∧
    roundKey c k r = ksel c ((k.extractLsb' 6 6).rotateLeft (cumulativeShift c r % 6) ++
      (k.extractLsb' 0 6).rotateLeft (cumulativeShift c r % 6))) ∧
  (List.range' 1 16).map (cumulativeShift hardwareCfg) =
    [1, 2, 4, 6, 8, 10, 12, 14, 15, 17, 19, 21, 23, 25, 27, 28] ∧
  ∀ k : Key, chainAfter hardwareCfg k 4 = k ∧ chainAfter hardwareCfg k 7 = k

/-- deriveRoundShift and advance (43_key_schedule.md R161 to R163): this hardware's amounts, the next state, the round
key of each round selected from the state after that round's rotation, the fixed points and the examples. -/
def Obligations.AdvanceRotatesThenSelects : Prop :=
  (∀ (c : Cfg) (r : Nat), roundShift c r = if r ∈ c.shift1Set then 1 else 2) ∧
  (List.range' 1 16).map (roundShift hardwareCfg) = [1, 1, 2, 2, 2, 2, 2, 2, 1, 2, 2, 2, 2, 2, 2, 1] ∧
  (∀ (c : Cfg) (n : Key) (r : Nat), advanceChain c n r =
    (n.extractLsb' 6 6).rotateLeft (roundShift c r) ++ (n.extractLsb' 0 6).rotateLeft (roundShift c r)) ∧
  (∀ (c : Cfg) (n : Key), roundKeyOf c n = ksel c n) ∧
  (∀ (c : Cfg) (k : Key) (r : Nat), roundKey c k (r + 1) = ksel c (advanceChain c (chainAfter c k r) (r + 1))) ∧
  (∀ (c : Cfg) (r : Nat), advanceChain c 0x000#12 r = 0x000#12 ∧ advanceChain c 0xFFF#12 r = 0xFFF#12) ∧
  advanceChain hardwareCfg 0x96D#12 1 = 0x2DB#12 ∧ roundKeyOf hardwareCfg 0x2DB#12 = 0x877#12 ∧
  roundKeyOf hardwareCfg 0x000#12 = 0x000#12 ∧ roundKeyOf hardwareCfg 0xFFF#12 = 0xFFF#12

/-- FeistelRound.apply and F (44_feistel_round.md R180 to R182): the eight steps, for every record, and the example. -/
def Obligations.FeistelRoundFollowsTheEightSteps : Prop :=
  (∀ (c : Cfg) (b : Block) (rk e m : Expanded) (s p : HalfBlock),
    e = expandHalf c (b.extractLsb' 0 8) → m = e ^^^ rk → s = substitute c m → p = perm8 c s →
    feistelRound c b rk = b.extractLsb' 0 8 ++ (p ^^^ b.extractLsb' 8 8) ∧
    roundFunction c (b.extractLsb' 0 8) rk = p) ∧
  (∀ c : Cfg, c.sboxA 0#2 0#4 = 0 → c.sboxB 0#2 0#4 = 0 → roundFunction c 0x00#8 0x000#12 = 0x00#8) ∧
  roundFunction tc0 0x6F#8 0x877#12 = 0x8A#8 ∧
  expandHalf tc0 0x6F#8 = 0xB5E#12 ∧ substitute tc0 0x329#12 = 0x64#8 ∧ perm8 tc0 0x64#8 = 0x8A#8 ∧
  feistelRound tc0 0x636F#16 0x877#12 = 0x6FE9#16

/-- The swap law (44_feistel_round.md R184), for every record, block and round key. -/
def Obligations.SwappedRoundUndoesARound : Prop :=
  ∀ (c : Cfg) (b : Block) (rk : Expanded),
    feistelRound c (swapHalves (feistelRound c b rk)) rk = swapHalves b

/-- A round applied twice (44_feistel_round.md R185): the value, when it is the input again, and the example. -/
def Obligations.RoundTwiceIsNotTheIdentity : Prop :=
  (∀ (c : Cfg) (b : Block) (rk : Expanded) (l r f : HalfBlock),
    l = b.extractLsb' 8 8 → r = b.extractLsb' 0 8 → f = roundFunction c r rk ^^^ l →
    feistelRound c (feistelRound c b rk) rk = f ++ (roundFunction c f rk ^^^ r) ∧
    (feistelRound c (feistelRound c b rk) rk = b ↔
      roundFunction c r rk = 0x00#8 ∧ roundFunction c l rk = 0x00#8)) ∧
  feistelRound tc0 0x636F#16 0x877#12 = 0x6FE9#16 ∧ feistelRound tc0 0x6FE9#16 0x877#12 = 0xE9FC#16

/-- The inverse (44_feistel_round.md R187): a pass is undone by the rounds in the other order between two swaps, so
for every key a pass is a bijection on blocks. -/
def Obligations.PassIsUndoneByReversedRounds : Prop :=
  (∀ (c : Cfg) (b : Block) (rk : Expanded),
    swapHalves (feistelRound c (swapHalves (feistelRound c b rk)) rk) = b ∧
    feistelRound c (swapHalves (feistelRound c (swapHalves b) rk)) rk = b) ∧
  (∀ (c : Cfg) (b : Block) (k : Key), undoBlock c (encryptBlock c b k) k = b) ∧
  ∀ (c : Cfg) (k : Key), Function.Bijective fun b => encryptBlock c b k

/-! ## Characters, blocks and text -/

/-- encodeChar and encode (40_bit_encoder.md R110, R111, R116): a code point up to 255 gives its eight bits, most
significant first, and is the operand of its PUTCH; a larger one is refused; a text gives eight bits a character, in
order. -/
def Obligations.CharactersAreEightBitsMsbFirst : Prop :=
  (∀ n : Nat, n ≤ 255 → ∃ char, encodeChar n = some char ∧ char.toNat = n ∧
    ∀ i, i < 8 → seqElem char i = n.testBit (7 - i)) ∧
  (∀ n : Nat, 255 < n → encodeChar n = none) ∧
  (∀ (n : Nat) (char : Char8), encodeChar n = some char →
    decode (BitVec.ofNat 16 (0x2000 + n)) = .command (.putch char)) ∧
  (∀ ns : List Nat, encodeText ns = none ↔ ∃ n ∈ ns, 255 < n) ∧
  (∀ a b : List Char8, encodeBits (a ++ b) = encodeBits a ++ encodeBits b) ∧
  (∀ char : Char8, encodeBits [char] = (List.range 8).map fun i => seqElem char i) ∧
  (∀ text : List Char8, (encodeBits text).length = 8 * text.length) ∧
  encodeBits [] = []

/-- segment (40_bit_encoder.md R112): consecutive chunks left to right, all of 16 bits but a short last one, which a
text has exactly when its length is odd and then has 8 bits. -/
def Obligations.SegmentCutsConsecutiveChunks : Prop :=
  (∀ bits : List Bool, (segmentBits bits).flatten = bits ∧ (segmentBits bits).length = (bits.length + 15) / 16) ∧
  (∀ (bits : List Bool) (k : Nat) (h : k < (segmentBits bits).length),
    (segmentBits bits)[k].length = min 16 (bits.length - 16 * k)) ∧
  (∀ (bits : List Bool) (last : List Bool), bits.length % 16 ≠ 0 → (segmentBits bits).getLast? = some last →
    last.length = bits.length % 16) ∧
  (∀ text : List Char8, (∃ chunk ∈ segmentBits (encodeBits text), chunk.length < 16) ↔ text.length % 2 = 1) ∧
  ∀ (text : List Char8) (chunk : List Bool), chunk ∈ segmentBits (encodeBits text) → chunk.length < 16 →
    chunk.length = 8

/-- Block formation (from 40_bit_encoder.md R113 to R115): the blocks the hardware forms from a text are those its
encoding is segmented into, the short last one filled with zeros; there are ceil(m / 2), with as many output words of
16 bits, and only the last can be short, exactly when m is odd. -/
def Obligations.FormedBlocksAreTheSegmentedText : Prop :=
  (∀ text : List Char8, textBlocks text = formedBlocks text) ∧
  (∀ text : List Char8, (formedBlocks text).length = (text.length + 1) / 2) ∧
  (∀ (c : Cfg) (text : List Char8) (k : Key),
    (outputBits ((encryptText c text k).map Prod.fst)).length = 16 * ((text.length + 1) / 2)) ∧
  ∀ (text : List Char8) (k : Nat) (h : k < (formedBlocks text).length),
    ((formedBlocks text)[k].2 = true ↔ text.length % 2 = 1 ∧ k + 1 = (formedBlocks text).length)

/-! ## Whole-machine rules -/

/-- KEY (from 10_state.md R32): no edge changes it but an accepted SETKEY, to its operand, and reset, to zero. -/
def Obligations.KeyIsWrittenBySetkeyAndResetOnly : Prop :=
  ∀ s t : State, step s = .next t →
    ((pins s).rst = true ∧ t.key = 0x000#12) ∨
    (∃ k, commandAccepted s = true ∧ decode (pins s).cmd = .command (.setkey k) ∧ t.key = k) ∨
    t.key = s.key

/-- The flags HALF, SHORT and ERR_ILL (10_state.md R36 to R38): what sets and clears each, that nothing else changes
it, that no action reads ERR_ILL, and the status bit that shows each. -/
def Obligations.FlagsChangeOnlyByTheirEvents : Prop :=
  (∀ s t : State, step s = .next t →
    (t.half = if (pins s).rst then false
      else if commandAccepted s then
        match decode (pins s).cmd with
        | .command (.putch _) => !s.half
        | .command .flush     => false
        | _                   => s.half
      else s.half) ∧
    (t.short = if (pins s).rst || wordDelivered s then false
      else if commandAccepted s && s.half then
        match decode (pins s).cmd with
        | .command (.putch _) => false
        | .command .flush     => true
        | _                   => s.short
      else s.short) ∧
    (t.errIll = if (pins s).rst then false
      else if commandAccepted s then
        match decode (pins s).cmd with
        | .illegal _       => true
        | .command .clrerr => false
        | _                => s.errIll
      else s.errIll)) ∧
  (∀ (s t u : State) (flag : Bool), step s = .next t → step { s with errIll := flag } = .next u →
    { u with errIll := t.errIll } = t) ∧
  ∀ s : State, (status s).getLsbD 2 = s.half ∧ (status s).getLsbD 3 = s.short ∧ (status s).getLsbD 4 = s.errIll

/-- The sequencing (from 10_state.md R42): every transition of CST and RCNT, and no other but reset. -/
def Obligations.ControllerMovesAsListedAndNoOtherWay : Prop :=
  ∀ (c : Cfg) (s : State), c.wellFormed = true → s.Inv →
    ∃ t, coreStep c s = .next t ∧
      ((pins s).rst = true → t.cst = .idle ∧ t.rcnt = 0#5) ∧
      ((pins s).rst = false → s.cst = .idle →
        if commandAccepted s && startsBlock s.half (pins s).cmd then t.cst = .run ∧ t.rcnt = 0#5
        else t.cst = .idle ∧ t.rcnt = 0#5) ∧
      ((pins s).rst = false → s.cst = .run →
        t.rcnt.toNat = s.rcnt.toNat + 1 ∧ if s.rcnt = 15#5 then t.cst = .out else t.cst = .run) ∧
      ((pins s).rst = false → s.cst = .out →
        if (pins s).outReady then t.cst = .idle ∧ t.rcnt = 0#5 else t.cst = .out ∧ t.rcnt = 16#5)

/-- What is delivered (from 45_controller.md R206, 20_memory.md R79): only a delivery emits, it emits the pair in
BLOCK and SHORT, and what was emitted stays, in order. That it stays across a reset edge is the model's choice (log
entry 4). -/
def Obligations.OnlyDeliveryEmits : Prop :=
  (∀ s t : State, step s = .next t →
    t.emitted = s.emitted ++ if wordDelivered s then [⟨s.block, s.short⟩] else []) ∧
  ∀ (k : Nat) (s t : State), Host.Core.run Sys2Proof.core k s = .next t → s.emitted <+: t.emitted

/-- No command while a block is in flight (45_controller.md R208): the command pins have no effect outside IDLE, and
KEY, BUF, HALF and ERR_ILL keep their values, over any number of edges. -/
def Obligations.CommandsWaitWhileABlockIsInFlight : Prop :=
  (∀ (c : Cfg) (s : State) (p : Inputs) (ps : List Inputs) (valid : Bool) (cw : Word), s.cst ≠ .idle →
    cmdReady s = false ∧
    coreStep c { s with inputs := { p with cmdValid := valid, cmd := cw } :: ps } =
      coreStep c { s with inputs := p :: ps }) ∧
  ∀ (c : Cfg) (n : Nat) (s : State), NoReset n s →
    (∀ m u, m < n → runEdges c m s = .next u → u.cst ≠ .idle) →
    ∃ t, runEdges c n s = .next t ∧ t.key = s.key ∧ t.buf = s.buf ∧ t.half = s.half ∧ t.errIll = s.errIll

/-- Progress (45_controller.md R210): without reset RUN reaches OUT when the rounds left are done and not before, OUT
waits for `out_ready`, and IDLE is left only by a command. -/
def Obligations.RunReachesOutAndOutWaits : Prop :=
  (∀ (c : Cfg) (s : State), c.wellFormed = true → s.Inv → s.cst = .run → NoReset (16 - s.rcnt.toNat) s →
    (∀ k, k < 16 - s.rcnt.toNat → ∃ t, runEdges c k s = .next t ∧ t.cst = .run) ∧
    ∃ t, runEdges c (16 - s.rcnt.toNat) s = .next t ∧ t.cst = .out) ∧
  (∀ (c : Cfg) (n : Nat) (s : State), s.cst = .out → NoReset n s →
    (∀ j, j < n → (pinsAt j s).outReady = false) →
    ∃ t, runEdges c n s = .next t ∧ t.cst = .out ∧ t.block = s.block ∧ t.short = s.short ∧ t.emitted = s.emitted) ∧
  (∀ (c : Cfg) (s : State), s.cst = .out → (pins s).rst = false →
    ∃ t, coreStep c s = .next t ∧ (t.cst = .idle ↔ (pins s).outReady = true)) ∧
  ∀ (c : Cfg) (s t : State), s.cst = .idle → coreStep c s = .next t → t.cst ≠ .idle → commandAccepted s = true

/-- The timing of a block (from 70_reset_and_hazards.md R300): a command that starts a block is followed by round k at
the k-th edge after it, OUT after 16, delivery at the 17th if the host is ready, and the next command at the 18th; two
PUTCH one after the other keep the core busy until the 19th edge, which delivers their block. That `schedule` lists 19
pin values for them is the model's host convention (log entry 12). -/
def Obligations.BlockTakesItsEdges : Prop :=
  (∀ (c : Cfg) (s : State), c.wellFormed = true → s.cst = .idle → NoReset 18 s → (pins s).cmdValid = true →
    startsBlock s.half (pins s).cmd = true →
    (∀ k, k < 16 → ∃ t, runEdges c (1 + k) s = .next t ∧ t.cst = .run ∧ t.rcnt = BitVec.ofNat 5 k) ∧
    (∃ t, runEdges c 17 s = .next t ∧ outValid t = true ∧ t.rcnt = 16#5) ∧
    ((pinsAt 17 s).outReady = true → ∃ t, runEdges c 18 s = .next t ∧ cmdReady t = true)) ∧
  (∀ (c : Cfg) (s : State) (a b : Char8), c.wellFormed = true → s.cst = .idle → s.half = false → NoReset 19 s →
    (pinsAt 0 s).cmdValid = true → decode (pinsAt 0 s).cmd = .command (.putch a) →
    (pinsAt 1 s).cmdValid = true → decode (pinsAt 1 s).cmd = .command (.putch b) → (pinsAt 18 s).outReady = true →
    (∀ k, 2 ≤ k → k < 19 → ∃ t, runEdges c k s = .next t ∧ cmdReady t = false) ∧
    ∃ t, runEdges c 19 s = .next t ∧ cmdReady t = true ∧
      t.emitted = s.emitted ++ [⟨encryptBlock c (a ++ b) s.key, false⟩]) ∧
  ∀ a b : Char8, (schedule false [encode (.putch a), encode (.putch b)]).length = 19

/-! ## Configuration -/

/-- The configuration checks (00_scope.md R27): a record is well formed exactly when all nine hold, and an ill-formed
one has no step. -/
def Obligations.IllFormedRecordHasNoStep : Prop :=
  (∀ c : Cfg, c.wellFormed = true ↔
    c.eTable.length = 12 ∧ (∀ k ∈ c.eTable, 1 ≤ k ∧ k ≤ 8) ∧
    c.pTable.length = 8 ∧ (∀ k ∈ c.pTable, 1 ≤ k ∧ k ≤ 8) ∧
    c.kTable.length = 12 ∧ (∀ k ∈ c.kTable, 1 ≤ k ∧ k ≤ 12) ∧
    (∀ r ∈ c.shift1Set, 1 ≤ r ∧ r ≤ 16) ∧ c.roundCount = 16 ∧
    ∀ (row : BitVec 2) (col : BitVec 4), c.sboxA row col ≤ 15 ∧ c.sboxB row col ≤ 15) ∧
  (∀ (c : Cfg) (s : State), c.wellFormed = false →
    ∃ check, c.passes check = false ∧ stepOf c s = .refused (.configurationError check)) ∧
  ∀ (c : Cfg) (s : State), c.wellFormed = true → stepOf c s = coreStep c s

/-- This hardware's record is well formed, whatever its S-boxes hold, so the core built from it has the step `step`
(from 00_scope.md R25 to R27; log entry 6). -/
def Obligations.HardwareRecordIsWellFormed : Prop :=
  hardwareCfg.wellFormed = true ∧
  (∀ a b : BitVec 2 → BitVec 4 → SboxOut, (hardwareWith (romOf a) (romOf b)).wellFormed = true) ∧
  (∀ s : State, stepOf hardwareCfg s = step s) ∧
  ∀ (k : Nat) (s : State), Host.Core.run Sys2Proof.core k s = runEdges hardwareCfg k s

/-- Facts of this hardware's tables (from 00_scope.md R20 to R24, R28). -/
def Obligations.TablesHaveTheirListedFacts : Prop :=
  hardwareCfg.eTable = [8, 1, 2, 3, 4, 5, 4, 5, 6, 7, 8, 1] ∧ hardwareCfg.pTable = [2, 8, 4, 7, 6, 5, 3, 1] ∧
  hardwareCfg.kTable = [8, 7, 1, 4, 10, 5, 3, 9, 2, 12, 6, 11] ∧ hardwareCfg.roundCount = 16 ∧
  (∀ r, r ∈ hardwareCfg.shift1Set ↔ r = 1 ∨ r = 2 ∨ r = 9 ∨ r = 16) ∧ hardwareCfg.shift1Set.length = 4 ∧
  (List.range' 1 8).map (fun k => hardwareCfg.eTable.count k) = [2, 1, 1, 2, 2, 1, 1, 2] ∧
  hardwareCfg.pTable.Perm (List.range' 1 8) ∧ hardwareCfg.kTable.Perm (List.range' 1 12) ∧
  cumulativeShift hardwareCfg 16 = 28

/-! ## Invariants and headline results -/

/-- The reset state meets the invariants of 10_state.md R50. -/
def Obligations.ResetMeetsTheInvariants : Prop := State.reset.Inv

/-- Every edge keeps the invariants of 10_state.md R50, from every state that meets them. -/
def Obligations.EveryEdgeKeepsTheInvariants : Prop :=
  (∀ s t : State, s.Inv → step s = .next t → t.Inv) ∧
  ∀ (c : Cfg) (s t : State), c.wellFormed = true → s.Inv → coreStep c s = .next t → t.Inv

/-- Every state reachable from reset meets the invariants (10_state.md R50), whatever the host drives. -/
def Obligations.ReachableStatesMeetTheInvariants : Prop :=
  ∀ (k : Nat) (ins : List Inputs), ∃ t, Host.Core.run Sys2Proof.core k { State.reset with inputs := ins } = .next t ∧
    t.cst.code ≠ 0b11#2 ∧ t.rcnt.toNat ≤ 16 ∧
    (t.cst = .idle → t.rcnt = 0#5 ∧ t.block = 0x0000#16 ∧ t.kchain = 0x000#12 ∧ t.short = false) ∧
    (t.cst = .run → t.rcnt.toNat ≤ 15 ∧ t.half = false) ∧
    (t.cst = .out → t.rcnt = 16#5 ∧ t.half = false) ∧
    (t.half = false → t.buf = 0x00#8)

/-- Correctness of the pass (45_controller.md R207): 16 edges after a block starts, without reset, BLOCK is the whole
pass of that block under the KEY of its start, and that is what is emitted with the block's short flag, however long
the host lets it wait. -/
def Obligations.StartedBlockIsEncryptedAndDelivered : Prop :=
  ∀ (c : Cfg) (blk : Block) (short : Bool) (s : State), c.wellFormed = true →
    (NoReset 16 (start blk short s) →
      ∃ t, runEdges c 16 (start blk short s) = .next t ∧ t.cst = .out ∧ t.rcnt = 16#5 ∧
        t.block = encryptBlock c blk s.key) ∧
    ∀ n, TakenAfter n (start blk short s) →
      ∃ t, runEdges c (17 + n) (start blk short s) = .next t ∧ t.cst = .idle ∧
        t.emitted = s.emitted ++ [⟨encryptBlock c blk s.key, short⟩]

/-- Block independence (20_memory.md R80): the word of a block depends on the record, the block and the KEY of its
start alone, not on what came before, on the waiting or on the rest of the state. -/
def Obligations.WordDependsOnBlockAndKeyAlone : Prop :=
  ∀ (c : Cfg) (blk : Block) (short₁ short₂ : Bool) (s₁ s₂ : State) (n₁ n₂ : Nat), c.wellFormed = true →
    s₁.key = s₂.key → TakenAfter n₁ (start blk short₁ s₁) → TakenAfter n₂ (start blk short₂ s₂) →
    ∃ t₁ t₂ word, runEdges c (17 + n₁) (start blk short₁ s₁) = .next t₁ ∧
      runEdges c (17 + n₂) (start blk short₂ s₂) = .next t₂ ∧
      t₁.emitted = s₁.emitted ++ [⟨word, short₁⟩] ∧ t₂.emitted = s₂.emitted ++ [⟨word, short₂⟩]

/-- The message protocol (from 70_reset_and_hazards.md R297, 40_bit_encoder.md R115, 45_controller.md R200, R209): a
message sent to a settled core makes it emit the encryption of the message's blocks under KEY, in order, and settle
again with KEY and ERR_ILL as before. The pin values are those of a host that offers its next word until it is taken
and takes every output word at once (log entry 12). -/
def Obligations.MessageIsEncryptedBlockByBlock : Prop :=
  ∀ (chars : List Char8) (s : State) (later : List Inputs), Settled s →
    s.inputs = messageSchedule chars ++ later →
    ∃ t, Host.Core.run Sys2Proof.core (messageSchedule chars).length s = .next t ∧
      Settled t ∧ t.emitted = s.emitted ++ asOutWords (encryptText hardwareCfg chars s.key) ∧
      t.key = s.key ∧ t.errIll = s.errIll ∧ t.inputs = later

/-- Boot and message (from 70_reset_and_hazards.md R290, R293, R296, R297, 46_commands.md R231, 45_controller.md R200,
R207, R209): from any state at all, one edge of reset, a SETKEY and a message add the encryption of the message under
that key to what was emitted, with no error. That the pairs emitted before stay across the reset edge is the model's
choice (log entry 4), and the host is that of log entry 12. -/
def Obligations.BootThenMessageFromAnyState : Prop :=
  ∀ (k : Key) (chars : List Char8) (s : State) (later : List Inputs),
    s.inputs = bootSchedule k ++ messageSchedule chars ++ later →
    ∃ t, Host.Core.run Sys2Proof.core (bootSchedule k ++ messageSchedule chars).length s = .next t ∧
      Settled t ∧ t.key = k ∧ t.inputs = later ∧
      observation t = (s.emitted ++ asOutWords (encryptText hardwareCfg chars k), false)
end

