-- ==== Sys2Proof/Laws/Bits.lean ====
section
/-! SUPPORT. The small laws of the bit layer: fields of a word, halves of a value, the elements of a sequence and of a
table selection, and how rotations compose. -/

namespace Sys2Proof

section Parts

/-- The high part of a concatenation. -/
theorem extract_high {m n : Nat} (a : BitVec m) (b : BitVec n) : (a ++ b).extractLsb' n m = a := by
  ext i h
  simp [BitVec.getLsbD_append, BitVec.getLsbD_eq_getElem h]

/-- The low part of a concatenation. -/
theorem extract_low {m n : Nat} (a : BitVec m) (b : BitVec n) : (a ++ b).extractLsb' 0 n = b := by
  ext i h
  simp [BitVec.getLsbD_append, h]

/-- The middle part of a concatenation of three. -/
theorem extract_middle {l m n : Nat} (a : BitVec l) (b : BitVec m) (c : BitVec n) :
    (a ++ (b ++ c)).extractLsb' n m = b := by
  ext i h
  simp [BitVec.getLsbD_append, show n + i < m + n by omega, BitVec.getElem_append]

/-- The low part of a concatenation of three. -/
theorem extract_last {l m n : Nat} (a : BitVec l) (b : BitVec m) (c : BitVec n) :
    (a ++ (b ++ c)).extractLsb' 0 n = c := by
  ext i h
  simp [BitVec.getLsbD_append, show i < m + n by omega, BitVec.getElem_append, h]

/-- A value is its high part and its low part. -/
theorem parts_append {m n : Nat} (x : BitVec (m + n)) : x.extractLsb' n m ++ x.extractLsb' 0 n = x := by
  ext i h
  simp only [BitVec.getElem_append, BitVec.getElem_extractLsb', Nat.zero_add]
  split
  · rw [BitVec.getLsbD_eq_getElem h]
  · rw [show n + (i - n) = i by omega, BitVec.getLsbD_eq_getElem h]

end Parts

section Fields

@[simp] theorem opField_append (op : BitVec 4) (arg : BitVec 12) : opField (op ++ arg) = op := extract_high op arg

@[simp] theorem argField_append (op : BitVec 4) (arg : BitVec 12) : argField (op ++ arg) = arg := extract_low op arg

theorem z4Field_append (op z : BitVec 4) (char : Char8) : z4Field (op ++ (z ++ char)) = z :=
  extract_middle op z char

theorem charField_append (op z : BitVec 4) (char : Char8) : charField (op ++ (z ++ char)) = char :=
  extract_last op z char

/-- A word is its OP field and its ARG field. -/
theorem opField_argField (cw : Word) : opField cw ++ argField cw = cw := parts_append (m := 4) (n := 12) cw

/-- A word is its OP field, its Z4 field and its CHAR8 field. -/
theorem opField_z4Field_charField (cw : Word) : opField cw ++ (z4Field cw ++ charField cw) = cw := by
  have h : z4Field cw ++ charField cw = argField cw := by
    have h8 := parts_append (m := 4) (n := 8) (argField cw)
    rw [← h8]
    congr 1
    · ext i hi
      simp [z4Field, argField, BitVec.getLsbD_eq_getElem (show 8 + i < 16 by omega)]
    · ext i hi
      simp [charField, argField]
  rw [h, opField_argField]

@[simp] theorem opField_wordN (op : BitVec 4) : opField (wordN op) = op := extract_high op 0#12

@[simp] theorem argField_wordN (op : BitVec 4) : argField (wordN op) = 0#12 := extract_low op 0#12

@[simp] theorem opField_wordK (op : BitVec 4) (key : Key) : opField (wordK op key) = op := extract_high op key

@[simp] theorem argField_wordK (op : BitVec 4) (key : Key) : argField (wordK op key) = key := extract_low op key

@[simp] theorem opField_wordC (op : BitVec 4) (char : Char8) : opField (wordC op char) = op :=
  extract_high op (0#4 ++ char)

@[simp] theorem z4Field_wordC (op : BitVec 4) (char : Char8) : z4Field (wordC op char) = 0#4 :=
  extract_middle op 0#4 char

@[simp] theorem charField_wordC (op : BitVec 4) (char : Char8) : charField (wordC op char) = char :=
  extract_last op 0#4 char

end Fields

namespace Machine

section Halves

@[simp] theorem leftHalf_append (a b : HalfBlock) : leftHalf (a ++ b) = a := extract_high a b

@[simp] theorem rightHalf_append (a b : HalfBlock) : rightHalf (a ++ b) = b := extract_low a b

@[simp] theorem leftHalf_rightHalf (b : Block) : leftHalf b ++ rightHalf b = b := parts_append (m := 8) (n := 8) b

@[simp] theorem keyLeft_append (a b : KeyHalf) : keyLeft (a ++ b) = a := extract_high a b

@[simp] theorem keyRight_append (a b : KeyHalf) : keyRight (a ++ b) = b := extract_low a b

@[simp] theorem keyLeft_keyRight (n : Key) : keyLeft n ++ keyRight n = n := parts_append (m := 6) (n := 6) n

@[simp] theorem outputA_append (a b : SboxOut) : outputA (a ++ b) = a := extract_high a b

@[simp] theorem outputB_append (a b : SboxOut) : outputB (a ++ b) = b := extract_low a b

@[simp] theorem swapHalves_append (a b : HalfBlock) : swapHalves (a ++ b) = b ++ a := by simp [swapHalves]

end Halves

section Sequences

/-- The elements of the value of a sequence are the sequence's. -/
theorem ofSeq_getMsbD {n : Nat} {bits : List Bool} (h : bits.length = n) (i : Nat) :
    (ofSeq n bits).getMsbD i = bits.getD i false := by
  subst h
  simp [ofSeq]

/-- The elements of a table selection (41_bitops.md R120). -/
theorem tableSelect_getMsbD {w n : Nat} {table : List Nat} (x : BitVec w) (h : table.length = n) (i : Nat)
    (hi : i < table.length) : (tableSelect n table x).getMsbD i = posElem x table[i] := by
  rw [tableSelect, ofSeq_getMsbD (by simpa using h)]
  simp [hi]

end Sequences

section Rotations

/-- Rotations of a half add up. -/
theorem rotateHalf_rotateHalf (h : KeyHalf) (a b : Nat) : rotateHalf (rotateHalf h a) b = rotateHalf h (a + b) := by
  apply BitVec.eq_of_getMsbD_eq
  intro i hi
  have hlt : (b + i) % 6 < 6 := Nat.mod_lt _ (by omega)
  simp only [rotateHalf, BitVec.getMsbD_rotateLeft, hi, hlt, decide_true, Bool.true_and]
  congr 1
  omega

/-- A rotation of a half by a multiple of its width more is the same rotation. -/
theorem rotateHalf_mod (h : KeyHalf) (a : Nat) : rotateHalf h (a % 6) = rotateHalf h a := by
  apply BitVec.eq_of_getMsbD_eq
  intro i hi
  simp only [rotateHalf, BitVec.getMsbD_rotateLeft, hi, decide_true, Bool.true_and]
  congr 1
  omega

@[simp] theorem keyLeft_rotateHalves (n : Key) (a : Nat) : keyLeft (rotateHalves n a) = rotateHalf (keyLeft n) a := by
  simp [rotateHalves]

@[simp] theorem keyRight_rotateHalves (n : Key) (a : Nat) :
    keyRight (rotateHalves n a) = rotateHalf (keyRight n) a := by
  simp [rotateHalves]

end Rotations

end Machine

end Sys2Proof
end

