-- ==== Sys2Proof/Laws/PerInstr.lean ====
section
/-! SUPPORT. A law of every command, one lemma per constructor. -/

/-- The encoder agrees with the opcode map: a command's word has its row's fixed bits (30_encoding.md R95). -/
def Sys2Proof.Laws.EncodedInItsRow.Statement (i : Sys2Proof.Instr) : Prop :=
  Sys2Proof.encode i &&& Sys2Proof.rowMask i = Sys2Proof.rowMatch i

namespace Sys2Proof.Laws.EncodedInItsRow

theorem nop : Statement .nop := rfl

theorem setkey (key : Key) : Statement (.setkey key) := by
  simp only [Statement, encode, wordK, rowMask, rowMatch]
  ext i hi
  simp only [BitVec.getElem_and, BitVec.getElem_append]
  interval_cases i <;> simp

theorem putch (char : Char8) : Statement (.putch char) := by
  simp only [Statement, encode, wordC, rowMask, rowMatch]
  ext i hi
  simp only [BitVec.getElem_and, BitVec.getElem_append]
  interval_cases i <;> simp

theorem flush : Statement .flush := rfl

theorem clrerr : Statement .clrerr := rfl

end Sys2Proof.Laws.EncodedInItsRow
end

