-- ==== Sys2Proof/Laws/State.lean ====
section
/-! SUPPORT. One lemma per field per operation of Machine/Ops.lean and Machine/Flags.lean, each true by unfolding
once, so that no later proof unfolds a record update. -/

namespace Sys2Proof.Machine

@[simp] theorem clocked_cst (s : State) : (clocked s).cst = s.cst := rfl
@[simp] theorem clocked_rcnt (s : State) : (clocked s).rcnt = s.rcnt := rfl
@[simp] theorem clocked_key (s : State) : (clocked s).key = s.key := rfl
@[simp] theorem clocked_block (s : State) : (clocked s).block = s.block := rfl
@[simp] theorem clocked_kchain (s : State) : (clocked s).kchain = s.kchain := rfl
@[simp] theorem clocked_buf (s : State) : (clocked s).buf = s.buf := rfl
@[simp] theorem clocked_half (s : State) : (clocked s).half = s.half := rfl
@[simp] theorem clocked_short (s : State) : (clocked s).short = s.short := rfl
@[simp] theorem clocked_errIll (s : State) : (clocked s).errIll = s.errIll := rfl
@[simp] theorem clocked_inputs (s : State) : (clocked s).inputs = s.inputs.tail := rfl
@[simp] theorem clocked_emitted (s : State) : (clocked s).emitted = s.emitted := rfl
@[simp] theorem clocked_edges (s : State) : (clocked s).edges = s.edges + 1 := rfl

@[simp] theorem writeKey_cst (k : Key) (s : State) : (writeKey k s).cst = s.cst := rfl
@[simp] theorem writeKey_rcnt (k : Key) (s : State) : (writeKey k s).rcnt = s.rcnt := rfl
@[simp] theorem writeKey_key (k : Key) (s : State) : (writeKey k s).key = k := rfl
@[simp] theorem writeKey_block (k : Key) (s : State) : (writeKey k s).block = s.block := rfl
@[simp] theorem writeKey_kchain (k : Key) (s : State) : (writeKey k s).kchain = s.kchain := rfl
@[simp] theorem writeKey_buf (k : Key) (s : State) : (writeKey k s).buf = s.buf := rfl
@[simp] theorem writeKey_half (k : Key) (s : State) : (writeKey k s).half = s.half := rfl
@[simp] theorem writeKey_short (k : Key) (s : State) : (writeKey k s).short = s.short := rfl
@[simp] theorem writeKey_errIll (k : Key) (s : State) : (writeKey k s).errIll = s.errIll := rfl
@[simp] theorem writeKey_inputs (k : Key) (s : State) : (writeKey k s).inputs = s.inputs := rfl
@[simp] theorem writeKey_emitted (k : Key) (s : State) : (writeKey k s).emitted = s.emitted := rfl
@[simp] theorem writeKey_edges (k : Key) (s : State) : (writeKey k s).edges = s.edges := rfl

@[simp] theorem holdChar_cst (c : Char8) (s : State) : (holdChar c s).cst = s.cst := rfl
@[simp] theorem holdChar_rcnt (c : Char8) (s : State) : (holdChar c s).rcnt = s.rcnt := rfl
@[simp] theorem holdChar_key (c : Char8) (s : State) : (holdChar c s).key = s.key := rfl
@[simp] theorem holdChar_block (c : Char8) (s : State) : (holdChar c s).block = s.block := rfl
@[simp] theorem holdChar_kchain (c : Char8) (s : State) : (holdChar c s).kchain = s.kchain := rfl
@[simp] theorem holdChar_buf (c : Char8) (s : State) : (holdChar c s).buf = c := rfl
@[simp] theorem holdChar_half (c : Char8) (s : State) : (holdChar c s).half = true := rfl
@[simp] theorem holdChar_short (c : Char8) (s : State) : (holdChar c s).short = s.short := rfl
@[simp] theorem holdChar_errIll (c : Char8) (s : State) : (holdChar c s).errIll = s.errIll := rfl
@[simp] theorem holdChar_inputs (c : Char8) (s : State) : (holdChar c s).inputs = s.inputs := rfl
@[simp] theorem holdChar_emitted (c : Char8) (s : State) : (holdChar c s).emitted = s.emitted := rfl
@[simp] theorem holdChar_edges (c : Char8) (s : State) : (holdChar c s).edges = s.edges := rfl

@[simp] theorem start_cst (blk : Block) (f : Bool) (s : State) : (start blk f s).cst = .run := rfl
@[simp] theorem start_rcnt (blk : Block) (f : Bool) (s : State) : (start blk f s).rcnt = 0#5 := rfl
@[simp] theorem start_key (blk : Block) (f : Bool) (s : State) : (start blk f s).key = s.key := rfl
@[simp] theorem start_block (blk : Block) (f : Bool) (s : State) : (start blk f s).block = blk := rfl
@[simp] theorem start_kchain (blk : Block) (f : Bool) (s : State) : (start blk f s).kchain = s.key := rfl
@[simp] theorem start_buf (blk : Block) (f : Bool) (s : State) : (start blk f s).buf = 0x00#8 := rfl
@[simp] theorem start_half (blk : Block) (f : Bool) (s : State) : (start blk f s).half = false := rfl
@[simp] theorem start_short (blk : Block) (f : Bool) (s : State) : (start blk f s).short = f := rfl
@[simp] theorem start_errIll (blk : Block) (f : Bool) (s : State) : (start blk f s).errIll = s.errIll := rfl
@[simp] theorem start_inputs (blk : Block) (f : Bool) (s : State) : (start blk f s).inputs = s.inputs := rfl
@[simp] theorem start_emitted (blk : Block) (f : Bool) (s : State) : (start blk f s).emitted = s.emitted := rfl
@[simp] theorem start_edges (blk : Block) (f : Bool) (s : State) : (start blk f s).edges = s.edges := rfl

@[simp] theorem setErrIll_cst (s : State) : (setErrIll s).cst = s.cst := rfl
@[simp] theorem setErrIll_rcnt (s : State) : (setErrIll s).rcnt = s.rcnt := rfl
@[simp] theorem setErrIll_key (s : State) : (setErrIll s).key = s.key := rfl
@[simp] theorem setErrIll_block (s : State) : (setErrIll s).block = s.block := rfl
@[simp] theorem setErrIll_kchain (s : State) : (setErrIll s).kchain = s.kchain := rfl
@[simp] theorem setErrIll_buf (s : State) : (setErrIll s).buf = s.buf := rfl
@[simp] theorem setErrIll_half (s : State) : (setErrIll s).half = s.half := rfl
@[simp] theorem setErrIll_short (s : State) : (setErrIll s).short = s.short := rfl
@[simp] theorem setErrIll_errIll (s : State) : (setErrIll s).errIll = true := rfl
@[simp] theorem setErrIll_inputs (s : State) : (setErrIll s).inputs = s.inputs := rfl
@[simp] theorem setErrIll_emitted (s : State) : (setErrIll s).emitted = s.emitted := rfl
@[simp] theorem setErrIll_edges (s : State) : (setErrIll s).edges = s.edges := rfl

@[simp] theorem clearErrIll_cst (s : State) : (clearErrIll s).cst = s.cst := rfl
@[simp] theorem clearErrIll_rcnt (s : State) : (clearErrIll s).rcnt = s.rcnt := rfl
@[simp] theorem clearErrIll_key (s : State) : (clearErrIll s).key = s.key := rfl
@[simp] theorem clearErrIll_block (s : State) : (clearErrIll s).block = s.block := rfl
@[simp] theorem clearErrIll_kchain (s : State) : (clearErrIll s).kchain = s.kchain := rfl
@[simp] theorem clearErrIll_buf (s : State) : (clearErrIll s).buf = s.buf := rfl
@[simp] theorem clearErrIll_half (s : State) : (clearErrIll s).half = s.half := rfl
@[simp] theorem clearErrIll_short (s : State) : (clearErrIll s).short = s.short := rfl
@[simp] theorem clearErrIll_errIll (s : State) : (clearErrIll s).errIll = false := rfl
@[simp] theorem clearErrIll_inputs (s : State) : (clearErrIll s).inputs = s.inputs := rfl
@[simp] theorem clearErrIll_emitted (s : State) : (clearErrIll s).emitted = s.emitted := rfl
@[simp] theorem clearErrIll_edges (s : State) : (clearErrIll s).edges = s.edges := rfl

@[simp] theorem emit_cst (w : Word) (f : Bool) (s : State) : (emit w f s).cst = s.cst := rfl
@[simp] theorem emit_rcnt (w : Word) (f : Bool) (s : State) : (emit w f s).rcnt = s.rcnt := rfl
@[simp] theorem emit_key (w : Word) (f : Bool) (s : State) : (emit w f s).key = s.key := rfl
@[simp] theorem emit_block (w : Word) (f : Bool) (s : State) : (emit w f s).block = s.block := rfl
@[simp] theorem emit_kchain (w : Word) (f : Bool) (s : State) : (emit w f s).kchain = s.kchain := rfl
@[simp] theorem emit_buf (w : Word) (f : Bool) (s : State) : (emit w f s).buf = s.buf := rfl
@[simp] theorem emit_half (w : Word) (f : Bool) (s : State) : (emit w f s).half = s.half := rfl
@[simp] theorem emit_short (w : Word) (f : Bool) (s : State) : (emit w f s).short = s.short := rfl
@[simp] theorem emit_errIll (w : Word) (f : Bool) (s : State) : (emit w f s).errIll = s.errIll := rfl
@[simp] theorem emit_inputs (w : Word) (f : Bool) (s : State) : (emit w f s).inputs = s.inputs := rfl
@[simp] theorem emit_emitted (w : Word) (f : Bool) (s : State) : (emit w f s).emitted = s.emitted ++ [⟨w, f⟩] := rfl
@[simp] theorem emit_edges (w : Word) (f : Bool) (s : State) : (emit w f s).edges = s.edges := rfl

@[simp] theorem retire_cst (s : State) : (retire s).cst = .idle := rfl
@[simp] theorem retire_rcnt (s : State) : (retire s).rcnt = 0#5 := rfl
@[simp] theorem retire_key (s : State) : (retire s).key = s.key := rfl
@[simp] theorem retire_block (s : State) : (retire s).block = 0x0000#16 := rfl
@[simp] theorem retire_kchain (s : State) : (retire s).kchain = 0x000#12 := rfl
@[simp] theorem retire_buf (s : State) : (retire s).buf = s.buf := rfl
@[simp] theorem retire_half (s : State) : (retire s).half = s.half := rfl
@[simp] theorem retire_short (s : State) : (retire s).short = false := rfl
@[simp] theorem retire_errIll (s : State) : (retire s).errIll = s.errIll := rfl
@[simp] theorem retire_inputs (s : State) : (retire s).inputs = s.inputs := rfl
@[simp] theorem retire_emitted (s : State) : (retire s).emitted = s.emitted := rfl
@[simp] theorem retire_edges (s : State) : (retire s).edges = s.edges := rfl

@[simp] theorem deliver_cst (s : State) : (deliver s).cst = .idle := rfl
@[simp] theorem deliver_rcnt (s : State) : (deliver s).rcnt = 0#5 := rfl
@[simp] theorem deliver_key (s : State) : (deliver s).key = s.key := rfl
@[simp] theorem deliver_block (s : State) : (deliver s).block = 0x0000#16 := rfl
@[simp] theorem deliver_kchain (s : State) : (deliver s).kchain = 0x000#12 := rfl
@[simp] theorem deliver_buf (s : State) : (deliver s).buf = s.buf := rfl
@[simp] theorem deliver_half (s : State) : (deliver s).half = s.half := rfl
@[simp] theorem deliver_short (s : State) : (deliver s).short = false := rfl
@[simp] theorem deliver_errIll (s : State) : (deliver s).errIll = s.errIll := rfl
@[simp] theorem deliver_inputs (s : State) : (deliver s).inputs = s.inputs := rfl
@[simp] theorem deliver_emitted (s : State) : (deliver s).emitted = s.emitted ++ [⟨s.block, s.short⟩] := rfl
@[simp] theorem deliver_edges (s : State) : (deliver s).edges = s.edges := rfl

@[simp] theorem resetRegisters_cst (s : State) : (resetRegisters s).cst = .idle := rfl
@[simp] theorem resetRegisters_rcnt (s : State) : (resetRegisters s).rcnt = 0#5 := rfl
@[simp] theorem resetRegisters_key (s : State) : (resetRegisters s).key = 0x000#12 := rfl
@[simp] theorem resetRegisters_block (s : State) : (resetRegisters s).block = 0x0000#16 := rfl
@[simp] theorem resetRegisters_kchain (s : State) : (resetRegisters s).kchain = 0x000#12 := rfl
@[simp] theorem resetRegisters_buf (s : State) : (resetRegisters s).buf = 0x00#8 := rfl
@[simp] theorem resetRegisters_half (s : State) : (resetRegisters s).half = false := rfl
@[simp] theorem resetRegisters_short (s : State) : (resetRegisters s).short = false := rfl
@[simp] theorem resetRegisters_errIll (s : State) : (resetRegisters s).errIll = false := rfl
@[simp] theorem resetRegisters_inputs (s : State) : (resetRegisters s).inputs = s.inputs := rfl
@[simp] theorem resetRegisters_emitted (s : State) : (resetRegisters s).emitted = s.emitted := rfl
@[simp] theorem resetRegisters_edges (s : State) : (resetRegisters s).edges = s.edges := rfl

@[simp] theorem roundStep_cst (c : Cfg) (s : State) : (roundStep c s).cst = (if s.rcnt.toNat + 1 = c.roundCount then .out else s.cst) := rfl
@[simp] theorem roundStep_rcnt (c : Cfg) (s : State) : (roundStep c s).rcnt = BitVec.ofNat 5 (s.rcnt.toNat + 1) := rfl
@[simp] theorem roundStep_key (c : Cfg) (s : State) : (roundStep c s).key = s.key := rfl
@[simp] theorem roundStep_block (c : Cfg) (s : State) : (roundStep c s).block = feistelRound c s.block (roundKeyOf c (advanceChain c s.kchain (s.rcnt.toNat + 1))) := rfl
@[simp] theorem roundStep_kchain (c : Cfg) (s : State) : (roundStep c s).kchain = advanceChain c s.kchain (s.rcnt.toNat + 1) := rfl
@[simp] theorem roundStep_buf (c : Cfg) (s : State) : (roundStep c s).buf = s.buf := rfl
@[simp] theorem roundStep_half (c : Cfg) (s : State) : (roundStep c s).half = s.half := rfl
@[simp] theorem roundStep_short (c : Cfg) (s : State) : (roundStep c s).short = s.short := rfl
@[simp] theorem roundStep_errIll (c : Cfg) (s : State) : (roundStep c s).errIll = s.errIll := rfl
@[simp] theorem roundStep_inputs (c : Cfg) (s : State) : (roundStep c s).inputs = s.inputs := rfl
@[simp] theorem roundStep_emitted (c : Cfg) (s : State) : (roundStep c s).emitted = s.emitted := rfl
@[simp] theorem roundStep_edges (c : Cfg) (s : State) : (roundStep c s).edges = s.edges := rfl

@[simp] theorem skip_eq (s : State) : skip s = s := rfl
@[simp] theorem idleEdge_eq (s : State) : idleEdge s = s := rfl
@[simp] theorem holdOutput_eq (s : State) : holdOutput s = s := rfl
@[simp] theorem raiseIllegalCommand_eq (cw : Word) (s : State) : raiseIllegalCommand cw s = setErrIll s := rfl
@[simp] theorem acknowledgeIllegalCommand_eq (s : State) : acknowledgeIllegalCommand s = clearErrIll s := rfl

end Sys2Proof.Machine
end

