-- ==== Sys2Proof/Laws/Step.lean ====
section
/-! SUPPORT. What one command and one edge can do, said once: an equation per case of the edge and an inversion of
each, which later proofs cite instead of unfolding the step; and how runs of edges compose. -/

namespace Sys2Proof.Machine

section Commands

@[simp] theorem execNop_eq (s : State) : execNop s = .next s := rfl

@[simp] theorem execSetkey_eq (k : Key) (s : State) : execSetkey k s = .next (writeKey k s) := rfl

theorem execPutch_first {s : State} (c : Char8) (h : s.half = false) : execPutch c s = .next (holdChar c s) := by
  simp [execPutch, h]

theorem execPutch_second {s : State} (c : Char8) (h : s.half = true) :
    execPutch c s = .next (start (pairBlock s.buf c) false s) := by
  simp [execPutch, h]

theorem execFlush_pending {s : State} (h : s.half = true) : execFlush s = .next (start (shortBlock s.buf) true s) := by
  simp [execFlush, h]

theorem execFlush_empty {s : State} (h : s.half = false) : execFlush s = .next s := by
  simp [execFlush, h]

@[simp] theorem execClrerr_eq (s : State) : execClrerr s = .next (clearErrIll s) := rfl

/-- What a command can do: one case per outcome of R236. -/
theorem exec_cases {i : Instr} {s t : State} (h : exec i s = .next t) :
    (i = .nop ∧ t = s) ∨
    (∃ k, i = .setkey k ∧ t = writeKey k s) ∨
    (∃ c, i = .putch c ∧ s.half = false ∧ t = holdChar c s) ∨
    (∃ c, i = .putch c ∧ s.half = true ∧ t = start (pairBlock s.buf c) false s) ∨
    (i = .flush ∧ s.half = false ∧ t = s) ∨
    (i = .flush ∧ s.half = true ∧ t = start (shortBlock s.buf) true s) ∨
    (i = .clrerr ∧ t = clearErrIll s) := by
  have next_inj {a b : State} (e : Host.Outcome.next (φ := Fault) (ρ := Refusal) a = .next b) : b = a := by
    cases e; rfl
  cases i with
  | nop => exact .inl ⟨rfl, next_inj h⟩
  | setkey k => exact .inr (.inl ⟨k, rfl, next_inj h⟩)
  | putch c =>
    cases hh : s.half with
    | false =>
      rw [exec, execPutch_first c hh] at h
      exact .inr (.inr (.inl ⟨c, rfl, rfl, next_inj h⟩))
    | true =>
      rw [exec, execPutch_second c hh] at h
      exact .inr (.inr (.inr (.inl ⟨c, rfl, rfl, next_inj h⟩)))
  | flush =>
    cases hh : s.half with
    | false =>
      rw [exec, execFlush_empty hh] at h
      exact .inr (.inr (.inr (.inr (.inl ⟨rfl, rfl, next_inj h⟩))))
    | true =>
      rw [exec, execFlush_pending hh] at h
      exact .inr (.inr (.inr (.inr (.inr (.inl ⟨rfl, rfl, next_inj h⟩)))))
  | clrerr => exact .inr (.inr (.inr (.inr (.inr (.inr ⟨rfl, next_inj h⟩)))))

end Commands

section Words

theorem execWord_command {cw : Word} {i : Instr} (h : decode cw = .command i) (s : State) :
    execWord cw s = exec i s := by
  simp [execWord, h]

theorem execWord_illegal {cw : Word} {why : IllegalWhy} (h : decode cw = .illegal why) (s : State) :
    execWord cw s = .next (setErrIll s) := by
  simp [execWord, h]

end Words

section Edges

variable {c : Cfg} {s : State}

@[simp] theorem pins_cons (p : Inputs) (ps : List Inputs) : pins { s with inputs := p :: ps } = p := rfl

theorem pins_of_inputs {p : Inputs} {ps : List Inputs} (h : s.inputs = p :: ps) : pins s = p := by
  simp [pins, h]

theorem pins_of_nil (h : s.inputs = []) : pins s = Inputs.silent := by
  simp [pins, h]

theorem coreStep_reset (h : (pins s).rst = true) : coreStep c s = .next (resetRegisters (clocked s)) := by
  simp [coreStep, edgeAction, h]

theorem coreStep_idle (hr : (pins s).rst = false) (hc : s.cst = .idle) (hv : (pins s).cmdValid = false) :
    coreStep c s = .next (clocked s) := by
  simp [coreStep, edgeAction, hr, hc, hv]

theorem coreStep_word (hr : (pins s).rst = false) (hc : s.cst = .idle) (hv : (pins s).cmdValid = true) :
    coreStep c s = execWord (pins s).cmd (clocked s) := by
  simp [coreStep, edgeAction, hr, hc, hv]

theorem coreStep_run (hr : (pins s).rst = false) (hc : s.cst = .run) :
    coreStep c s = .next (roundStep c (clocked s)) := by
  simp [coreStep, edgeAction, hr, hc]

theorem coreStep_hold (hr : (pins s).rst = false) (hc : s.cst = .out) (ho : (pins s).outReady = false) :
    coreStep c s = .next (clocked s) := by
  simp [coreStep, edgeAction, hr, hc, ho]

theorem coreStep_deliver (hr : (pins s).rst = false) (hc : s.cst = .out) (ho : (pins s).outReady = true) :
    coreStep c s = .next (deliver (clocked s)) := by
  simp [coreStep, edgeAction, hr, hc, ho]

/-- What one edge can do (45_controller.md R201). -/
theorem coreStep_cases {t : State} (h : coreStep c s = .next t) :
    ((pins s).rst = true ∧ t = resetRegisters (clocked s)) ∨
    ((pins s).rst = false ∧ s.cst = .idle ∧ (pins s).cmdValid = false ∧ t = clocked s) ∨
    (∃ i, (pins s).rst = false ∧ s.cst = .idle ∧ (pins s).cmdValid = true ∧ decode (pins s).cmd = .command i ∧
      exec i (clocked s) = .next t) ∨
    (∃ why, (pins s).rst = false ∧ s.cst = .idle ∧ (pins s).cmdValid = true ∧
      decode (pins s).cmd = .illegal why ∧ t = setErrIll (clocked s)) ∨
    ((pins s).rst = false ∧ s.cst = .run ∧ t = roundStep c (clocked s)) ∨
    ((pins s).rst = false ∧ s.cst = .out ∧ (pins s).outReady = false ∧ t = clocked s) ∨
    ((pins s).rst = false ∧ s.cst = .out ∧ (pins s).outReady = true ∧ t = deliver (clocked s)) := by
  have next_inj {a b : State} (e : Host.Outcome.next (φ := Fault) (ρ := Refusal) a = .next b) : b = a := by
    cases e; rfl
  cases hr : (pins s).rst with
  | true =>
    rw [coreStep_reset hr] at h
    exact .inl ⟨rfl, next_inj h⟩
  | false =>
    refine .inr ?_
    cases hc : s.cst with
    | idle =>
      cases hv : (pins s).cmdValid with
      | false =>
        rw [coreStep_idle hr hc hv] at h
        exact .inl ⟨rfl, rfl, rfl, next_inj h⟩
      | true =>
        rw [coreStep_word hr hc hv] at h
        cases hd : decode (pins s).cmd with
        | command i =>
          rw [execWord_command hd] at h
          exact .inr (.inl ⟨i, rfl, rfl, rfl, rfl, h⟩)
        | illegal why =>
          rw [execWord_illegal hd] at h
          exact .inr (.inr (.inl ⟨why, rfl, rfl, rfl, rfl, next_inj h⟩))
    | run =>
      rw [coreStep_run hr hc] at h
      exact .inr (.inr (.inr (.inl ⟨rfl, rfl, next_inj h⟩)))
    | out =>
      cases ho : (pins s).outReady with
      | false =>
        rw [coreStep_hold hr hc ho] at h
        exact .inr (.inr (.inr (.inr (.inl ⟨rfl, rfl, rfl, next_inj h⟩))))
      | true =>
        rw [coreStep_deliver hr hc ho] at h
        exact .inr (.inr (.inr (.inr (.inr ⟨rfl, rfl, rfl, next_inj h⟩))))

/-- No command touches the model's own fields. -/
theorem exec_frame {i : Instr} {t : State} (h : exec i s = .next t) :
    t.inputs = s.inputs ∧ t.edges = s.edges ∧ t.emitted = s.emitted := by
  obtain ⟨-, rfl⟩ | ⟨k, -, rfl⟩ | ⟨ch, -, -, rfl⟩ | ⟨ch, -, -, rfl⟩ | ⟨-, -, rfl⟩ | ⟨-, -, rfl⟩ | ⟨-, rfl⟩ :=
    exec_cases h <;> simp

/-- Every edge uses up one pin value and is counted. -/
theorem coreStep_clock {t : State} (h : coreStep c s = .next t) :
    t.inputs = s.inputs.tail ∧ t.edges = s.edges + 1 := by
  obtain ⟨-, rfl⟩ | ⟨-, -, -, rfl⟩ | ⟨i, -, -, -, -, he⟩ | ⟨why, -, -, -, -, rfl⟩ | ⟨-, -, rfl⟩ | ⟨-, -, -, rfl⟩ |
    ⟨-, -, -, rfl⟩ := coreStep_cases h
  all_goals first
    | exact ⟨(exec_frame he).1, (exec_frame he).2.1⟩
    | simp

@[simp] theorem pinsAt_zero : pinsAt 0 s = pins s := by
  cases h : s.inputs <;> simp [pinsAt, pins, h]

/-- After one edge every later edge is one nearer. -/
theorem pinsAt_succ {t : State} (h : t.inputs = s.inputs.tail) (k : Nat) : pinsAt (k + 1) s = pinsAt k t := by
  cases hs : s.inputs <;> simp [pinsAt, h, hs]

/-- Without reset at the next edge, none is asserted at it. -/
theorem NoReset.first {k : Nat} (h : NoReset (k + 1) s) : (pins s).rst = false := by
  simpa using h 0 (by omega)

/-- Without reset at the next `k + 1` edges, none is asserted at the `k` edges after the next. -/
theorem NoReset.rest {k : Nat} {t : State} (h : NoReset (k + 1) s) (ht : t.inputs = s.inputs.tail) : NoReset k t :=
  fun j hj => by rw [← pinsAt_succ ht]; exact h (j + 1) (by omega)

end Edges

section Runs

variable {c : Cfg} {s t : State}

@[simp] theorem runEdges_zero : runEdges c 0 s = .next s := rfl

theorem runEdges_succ (k : Nat) (h : coreStep c s = .next t) : runEdges c (k + 1) s = runEdges c k t := by
  simp [runEdges, h]

/-- A run splits at any edge. -/
theorem runEdges_add {a b : Nat} (h : runEdges c a s = .next t) : runEdges c (a + b) s = runEdges c b t := by
  induction a generalizing s with
  | zero => cases h; simp
  | succ a ih =>
    rw [Nat.add_right_comm]
    simp only [runEdges] at h ⊢
    split at h
    · exact ih h
    · cases h
    · cases h

/-- The host's runs are runs of edges of this hardware's core. -/
theorem run_core (k : Nat) (s : State) : Host.Core.run Sys2Proof.core k s = runEdges hardwareCfg k s := by
  induction k generalizing s with
  | zero => rfl
  | succ k ih =>
    cases h : coreStep hardwareCfg s with
    | next t =>
      have hs : Sys2Proof.core.step s = .next t := h
      simp only [Host.Core.run, runEdges, hs, h]
      exact ih t
    | fault f =>
      have hs : Sys2Proof.core.step s = .fault f := h
      simp only [Host.Core.run, runEdges, hs, h]
      rfl
    | refused r =>
      have hs : Sys2Proof.core.step s = .refused r := h
      simp only [Host.Core.run, runEdges, hs, h]
      rfl

end Runs

end Sys2Proof.Machine
end

