-- ==== Sys2Proof/Machine/Assembler.lean ====
section
/-! DEFINITION. The command assembly syntax (30_encoding.md R100, R101): one line of characters to the words it stands
for, or a refusal by name. It has no effect on the hardware (92 D30). Lexical points R100 does not state are log
entry 11; which code a quoted character stands for is log entry 16. -/

namespace Sys2Proof.Machine

/-- Why an assembler refuses a line (R100). -/
inductive AsmRefusal where
  | unknownMnemonic | badKey | badChar | badWord | badText | strayOperand
  deriving DecidableEq, Repr

/-- What a line stands for. -/
inductive Assembled where
  | words (ws : List Word)
  | refused (why : AsmRefusal)
  deriving DecidableEq, Repr

/-- The line before the first `;` that stands outside quotes: `;` starts a comment (R100). -/
def stripComment : Bool → List Char → List Char
  | _, []                         => []
  | false, '\'' :: c :: '\'' :: cs => '\'' :: c :: '\'' :: stripComment false cs
  | inText, c :: cs               =>
    if c = ';' && !inText then []
    else c :: stripComment (if c = '"' then !inText else inText) cs

/-- A blank character. -/
def isBlank (c : Char) : Bool := c = ' ' || c = '\t'

/-- A line without its leading and trailing blanks. -/
def trim (cs : List Char) : List Char := ((cs.dropWhile isBlank).reverse.dropWhile isBlank).reverse

/-- The value of a digit in a base up to 16. -/
def digitValue (base : Nat) (c : Char) : Option Nat :=
  let n := c.toNat
  let d := if 48 ≤ n ∧ n ≤ 57 then n - 48
    else if 97 ≤ n ∧ n ≤ 102 then n - 87
    else if 65 ≤ n ∧ n ≤ 70 then n - 55
    else base
  if d < base then some d else none

/-- The value of a digit string, most significant digit first. -/
def numeralFrom (base : Nat) : Nat → List Char → Option Nat
  | acc, []      => some acc
  | acc, c :: cs =>
    match digitValue base c with
    | some d => numeralFrom base (acc * base + d) cs
    | none   => none

/-- The value of a numeral of exactly `count` digits. -/
def fixedNumeral (base count : Nat) (ds : List Char) : Option Nat :=
  if ds.length = count then numeralFrom base 0 ds else none

/-- The inside of a string between double quotes that holds no double quote. -/
def quoted : List Char → Option (List Char)
  | '"' :: cs =>
    match cs.reverse with
    | '"' :: rev => if rev.contains '"' then none else some rev.reverse
    | _          => none
  | _         => none

/-- `<key>`: `0b` and 12 binary digits, `0x` and 3 hex digits, or a quoted 12-character string of 0 and 1 (R100).
DESIGN CHOICE: the quotes are double quotes, as around the source's key. Log entry 11. -/
def keyOperand : List Char → Option Key
  | '0' :: 'b' :: ds => (fixedNumeral 2 12 ds).map (BitVec.ofNat 12)
  | '0' :: 'x' :: ds => (fixedNumeral 16 3 ds).map (BitVec.ofNat 12)
  | cs               => (quoted cs).bind fun ds => (fixedNumeral 2 12 ds).map (BitVec.ofNat 12)

/-- `<ch>`: `0x` and 2 hex digits, a decimal 0..255, or a quoted single character for its code point (R100).
DESIGN CHOICE: a decimal has any number of digits, one or more, leading zeros included, as R100 gives no count for it.
Log entry 11.
DESIGN CHOICE: a quoted character's code is its Unicode code point; the spec leaves that mapping to the host (92 D9,
91 N3). Log entry 16. -/
def charOperand : List Char → Option Char8
  | '0' :: 'x' :: ds   => (fixedNumeral 16 2 ds).bind encodeChar
  | ['\'', c, '\'']    => encodeChar c.toNat
  | []                 => none
  | ds                 => (numeralFrom 10 0 ds).bind encodeChar

/-- `<0xHHHH>`: `0x` and 4 hex digits (R100, R101). -/
def wordOperand : List Char → Option Word
  | '0' :: 'x' :: ds => (fixedNumeral 16 4 ds).map (BitVec.ofNat 16)
  | _                => none

/-- `"<s>"`: the characters of s as code points, each at most 255 (R101, 40_bit_encoder.md R116).
DESIGN CHOICE: a character's code is its Unicode code point (92 D9, 91 N3). Log entry 16. -/
def textOperand (cs : List Char) : Option (List Char8) :=
  (quoted cs).bind fun s => encodeText (s.map Char.toNat)

/-- The words of a command without an operand. -/
def plainLine (i : Instr) (operand : List Char) : Assembled :=
  if operand.isEmpty then .words [encode i] else .refused .strayOperand

/-- The words of the commands an operand stands for, or the refusal of the operand. -/
def operandLine {α : Type} (commands : α → List Instr) (why : AsmRefusal) (operand : Option α) : Assembled :=
  match operand with
  | some x => .words ((commands x).map encode)
  | none   => .refused why

/-- The line of `.word`: the raw word, legal or not (R100). -/
def rawLine (operand : Option Word) : Assembled :=
  match operand with
  | some w => .words [w]
  | none   => .refused .badWord

/-- A mnemonic in capitals and its operand (R100, R101). -/
def commandLine (mnemonic operand : List Char) : Assembled :=
  if mnemonic = ['N', 'O', 'P'] then plainLine .nop operand
  else if mnemonic = ['S', 'E', 'T', 'K', 'E', 'Y'] then
    operandLine (fun k => [.setkey k]) .badKey (keyOperand operand)
  else if mnemonic = ['P', 'U', 'T', 'C', 'H'] then
    operandLine (fun c => [.putch c]) .badChar (charOperand operand)
  else if mnemonic = ['F', 'L', 'U', 'S', 'H'] then plainLine .flush operand
  else if mnemonic = ['C', 'L', 'R', 'E', 'R', 'R'] then plainLine .clrerr operand
  else if mnemonic = ['.', 'W', 'O', 'R', 'D'] then rawLine (wordOperand operand)
  else if mnemonic = ['B', 'L', 'O', 'C', 'K'] then
    operandLine (fun w => (Pseudo.block w).expand) .badWord (wordOperand operand)
  else if mnemonic = ['T', 'E', 'X', 'T'] then
    operandLine (fun cs => (Pseudo.text cs).expand) .badText (textOperand operand)
  else if mnemonic = ['K', 'E', 'Y'] then
    operandLine (fun k => (Pseudo.key k).expand) .badKey (keyOperand operand)
  else .refused .unknownMnemonic

/-- One line of a command sequence; an empty line or a comment alone stands for no word (R100). -/
def assembleLine (line : List Char) : Assembled :=
  let body := trim (stripComment false line)
  if body.isEmpty then .words []
  else
    commandLine ((body.takeWhile fun c => !isBlank c).map Char.toUpper) (trim (body.dropWhile fun c => !isBlank c))

/-- The lines of a command sequence in order, refused at the first line that is refused (R100). -/
def assemble : List (List Char) → Assembled
  | []            => .words []
  | line :: lines =>
    match assembleLine line with
    | .refused why => .refused why
    | .words ws    =>
      match assemble lines with
      | .refused why => .refused why
      | .words rest  => .words (ws ++ rest)

end Sys2Proof.Machine
end

