-- ==== Sys2Proof/Tests/Slice0.lean ====
section
/-! SUPPORT. The model's own tests: ill-formed terms that a check refuses, words written out from the encoding tables
of 30_encoding.md, single steps, vectors of 95_test_vectors.md, and for every statement with hypotheses a concrete
witness that meets them. Expected values come from the spec's text and tables. -/

namespace Sys2Proof.Tests

open Sys2Proof Sys2Proof.Machine

/-! ## Helpers -/

/-- The state a step answers, if it answers one. -/
def after : Host.Outcome State Fault Refusal → Option State
  | .next t => some t
  | _       => none

/-- A state with these pin values at the coming edges. -/
def driven (ps : List Inputs) (s : State) : State := { s with inputs := ps }

/-- The reset state with the words offered at the coming edges. -/
def offered (cws : List Word) : State := { State.reset with inputs := cws.map presenting }

/-- The reset state with a pending character. -/
def pendingState (char : Char8) : State := { State.reset with buf := char, half := true }

/-- A block in flight after `r` rounds. -/
def inRun (r : Nat) (chain : Key) (block : Block) : State :=
  { State.reset with cst := .run, rcnt := BitVec.ofNat 5 r, kchain := chain, block := block }

/-- A finished block that waits. -/
def inOut (block : Block) (short : Bool) : State :=
  { State.reset with cst := .out, rcnt := 16#5, block := block, short := short }

/-- Pin values of a host that waits, ready or not ready to take a word. -/
def waiting (ready : Bool) : Inputs := { Inputs.silent with outReady := ready }

/-! ## Well-formedness (00_scope.md R27): a record that fails each check is refused -/

theorem test_wf_eLen : ({ tc0 with eTable := [8, 1, 2] } : Cfg).firstFailing = some .eLen := by decide
theorem test_wf_eRange :
    ({ tc0 with eTable := [8, 1, 2, 3, 4, 5, 4, 5, 6, 7, 9, 1] } : Cfg).firstFailing = some .eRange := by decide
theorem test_wf_pLen : ({ tc0 with pTable := [] } : Cfg).firstFailing = some .pLen := by decide
theorem test_wf_pRange :
    ({ tc0 with pTable := [2, 8, 4, 7, 6, 5, 3, 0] } : Cfg).firstFailing = some .pRange := by decide
theorem test_wf_kLen : ({ tc0 with kTable := [1] } : Cfg).firstFailing = some .kLen := by decide
theorem test_wf_kRange :
    ({ tc0 with kTable := [8, 7, 1, 4, 10, 5, 3, 9, 2, 13, 6, 11] } : Cfg).firstFailing = some .kRange := by decide
theorem test_wf_shiftRange : ({ tc0 with shift1Set := [1, 17] } : Cfg).firstFailing = some .shiftRange := by decide
theorem test_wf_rounds : ({ tc0 with roundCount := 15 } : Cfg).firstFailing = some .rounds := by decide
theorem test_wf_sboxRange :
    (hardwareWith (fun _ col => col.toNat) (fun row col => if row = 3#2 then 16 else col.toNat)).firstFailing =
      some .sboxRange := by decide
theorem test_wf_accepts : tc0.wellFormed = true ∧ tc1.wellFormed = true := by decide
/-- P_TABLE need not be a bijection (R27). -/
theorem test_wf_no_bijectivity : ({ tc0 with pTable := [1, 1, 1, 1, 1, 1, 1, 1] } : Cfg).wellFormed = true := by decide
theorem test_wf_operands :
    keyInRange 0xFFF = true ∧ keyInRange 0x1000 = false ∧ charInRange 255 = true ∧ charInRange 256 = false := by decide

/-! ## Decoding (30_encoding.md R91 to R95): words written out field by field -/

/-- Format N, OP 0x0: `0000 000000000000`. -/
theorem test_decode_nop : decode 0b0000000000000000#16 = .command .nop := by decide
/-- Format K, OP 0x1, KEY12 = 100101101101 (46 R231's example). -/
theorem test_decode_setkey : decode 0b0001100101101101#16 = .command (.setkey 0b100101101101#12) := by decide
/-- Format C, OP 0x2, Z4 0000, CHAR8 = 01100011, the code of `c`. -/
theorem test_decode_putch : decode 0b0010000001100011#16 = .command (.putch 0x63#8) := by decide
/-- Format N, OP 0x3. -/
theorem test_decode_flush : decode 0b0011000000000000#16 = .command .flush := by decide
/-- Format N, OP 0x4. -/
theorem test_decode_clrerr : decode 0b0100000000000000#16 = .command .clrerr := by decide
/-- V-D3, V-D9, V-D14 and P4's `.word 0x2163`. -/
theorem test_decode_illegal :
    decode 0x0FFF#16 = .illegal .nonzeroZ12 ∧ decode 0x2F63#16 = .illegal .nonzeroZ4 ∧
    decode 0x5000#16 = .illegal .unassignedOpcode ∧ decode 0x2163#16 = .illegal .nonzeroZ4 := by decide
theorem test_decodeTableWord :
    decodeTableWord 16 0x196D = some (.setkey 0x96D#12) ∧ decodeTableWord 16 0x5000 = none ∧
    decodeTableWord 32 0x0000 = none := by decide

/-! ## One step (the programs P1, P3, P4 and P7 of 95_test_vectors.md, edge by edge) -/

theorem test_step_nop : (after (step (offered [0x0000#16]))).map State.cst = some .idle := by decide
theorem test_step_setkey : (after (step (offered [0x196D#16]))).map State.key = some 0x96D#12 := by decide
theorem test_step_putch_first :
    (after (step (offered [0x2063#16]))).map (fun t => (t.buf, status t)) = some (0x63#8, 0x0004#16) := by decide
theorem test_step_putch_second :
    (after (exec (.putch 0x6F#8) { pendingState 0x63#8 with key := 0x96D#12 })).map
      (fun t => (t.block, t.kchain, status t)) = some (0x636F#16, 0x96D#12, 0x0001#16) := by decide
theorem test_step_flush_pending :
    (after (exec .flush (pendingState 0x63#8))).map (fun t => (t.block, t.short, t.cst)) =
      some (0x6300#16, true, .run) := by decide
theorem test_step_flush_empty : after (exec .flush State.reset) = some State.reset := by decide
theorem test_step_clrerr :
    (after (exec .clrerr { State.reset with errIll := true })).map State.errIll = some false := by decide
/-- P4: an illegal word with a character pending, status 0x0014. -/
theorem test_step_illegal :
    (after (execWord 0x5000#16 (pendingState 0x63#8))).map (fun t => (t.buf, status t)) =
      some (0x63#8, 0x0014#16) := by decide
/-- Round 1 of P1 under TC0 (45 R204's example), and under TC1. -/
theorem test_step_round :
    (after (coreStep tc0 (inRun 0 0x96D#12 0x636F#16))).map (fun t => (t.kchain, t.block, status t)) =
      some (0x2DB#12, 0x6FE9#16, 0x0021#16) ∧
    (after (coreStep tc1 (inRun 0 0x96D#12 0x636F#16))).map State.block = some 0x6F69#16 := by decide
/-- Round 16 of P1 under TC0: OUT, status 0x0202. -/
theorem test_step_last_round :
    (after (coreStep tc0 (inRun 15 0xB2D#12 0xB3A0#16))).map (fun t => (t.kchain, t.block, status t)) =
      some (0x65B#12, 0xA0EC#16, 0x0202#16) := by decide
/-- P7: at a delivery the offered command is not accepted. -/
theorem test_step_deliver :
    (after (step { inOut 0xA0EC#16 false with inputs := [presenting 0x2075#16] })).map
      (fun t => (t.emitted, t.half, status t)) = some ([⟨0xA0EC#16, false⟩], false, 0x0000#16) := by decide
theorem test_step_hold :
    (after (step { inOut 0xA0EC#16 false with inputs := [waiting false] })).map status = some 0x0202#16 := by decide
/-- P6: reset during a run. -/
theorem test_step_reset :
    (after (step { inRun 5 0x5B6#12 0xFF30#16 with key := 0x96D#12, inputs := [resetting] })).map
      (fun t => (t.key, t.emitted, status t)) = some (0x000#12, [], 0x0000#16) := by decide
theorem test_withFetchWord :
    (after (step (State.reset.withFetchWord 16 0x196D))).map State.key = some 0x96D#12 := by decide
theorem test_build_refuses :
    stepOf { tc0 with roundCount := 15 } State.reset = .refused (.configurationError .rounds) := rfl

/-! ## Vectors of the datapath -/

/-- V-B8, V-B11, V-B25, V-B26, V-B42, V-B44. -/
theorem test_wiring :
    expandHalf hardwareCfg 0x80#8 = 0x401#12 ∧ expandHalf hardwareCfg 0x6F#8 = 0xB5E#12 ∧
    perm8 hardwareCfg 0x64#8 = 0x8A#8 ∧ perm8 hardwareCfg 0x0F#8 = 0x5C#8 ∧
    ksel hardwareCfg 0x2DB#12 = 0x877#12 ∧ ksel hardwareCfg 0x5B6#12 = 0xDC9#12 := by decide
/-- V-B45, V-B48, V-B49. -/
theorem test_xor_pad :
    xorBits 0x8A#8 0x63#8 = 0xE9#8 ∧ padBinary [true, false, true] 4 = [false, true, false, true] ∧
    padBinary [true, true, true, true] 4 = [true, true, true, true] := by decide
/-- V-X2, V-X3, V-X5, V-X8: row, column, ROM address. -/
theorem test_sbox_address :
    romAddress (sboxRow 0b000001#6) (sboxCol 0b000001#6) = 16#6 ∧
    romAddress (sboxRow 0b100000#6) (sboxCol 0b100000#6) = 32#6 ∧
    romAddress (sboxRow 0b011110#6) (sboxCol 0b011110#6) = 15#6 ∧
    romAddress (sboxRow 0b010101#6) (sboxCol 0b010101#6) = 26#6 := by decide
/-- V-X10 to V-X15 under TC1. -/
theorem test_substitute :
    substitute tc1 0x000#12 = 0x07#8 ∧ substitute tc1 0xFFF#12 = 0xCB#8 ∧ substitute tc1 0x329#12 = 0x24#8 ∧
    substitute tc1 0x800#12 = 0xA7#8 ∧ substitute tc1 0x001#12 = 0x0A#8 ∧ substitute tc1 0xB5E#12 = 0x12#8 := by decide
/-- V-K1, V-K8 and V-K12. -/
theorem test_key_schedule :
    rotateHalf 0b100101#6 2 = 0b010110#6 ∧ chainAfter hardwareCfg 0x96D#12 9 = 0xB2D#12 ∧
    roundKey hardwareCfg 0x96D#12 9 = 0x7B4#12 ∧ roundKey hardwareCfg 0x800#12 16 = 0x020#12 := by decide +kernel
/-- V-F5 and V-F10. -/
theorem test_round :
    feistelRound tc0 0x1234#16 0xABC#12 = 0x3484#16 ∧ feistelRound tc1 0x1234#16 0xABC#12 = 0x34D7#16 := by decide
/-- V-C1, V-C4, V-C7. -/
theorem test_pass_tc0 :
    encryptBlock tc0 0x636F#16 0x96D#12 = 0xA0EC#16 ∧ encryptBlock tc0 0x6300#16 0x96D#12 = 0xCF32#16 ∧
    encryptBlock tc0 0x636F#16 0x000#12 = 0x6FBD#16 := by decide +kernel
theorem test_pass_tc1 :
    encryptBlock tc1 0x636F#16 0x96D#12 = 0xFC4A#16 ∧ encryptBlock tc1 0x0000#16 0x000#12 = 0x47C1#16 := by decide +kernel
/-- V-E4, V-E6, V-E7. -/
theorem test_text :
    textBlocks [0x63#8, 0x6F#8] = [(0x636F#16, false)] ∧ textBlocks [] = [] ∧
    textBlocks [0x63#8] = [(0x6300#16, true)] := by decide
/-- V-E1, V-E3, and a code point no character has. -/
theorem test_encodeChar :
    encodeChar 0 = some 0x00#8 ∧ encodeChar 0x63 = some 0b01100011#8 ∧ encodeChar 256 = none := by decide
/-- P1's and P3's edge counts: 21 and 22, the first edge being reset. -/
theorem test_schedule_edges :
    (bootSchedule 0x96D#12 ++ schedule false [0x2063#16, 0x206F#16]).length = 21 ∧
    (bootSchedule 0x96D#12 ++ schedule false [0x2063#16, 0x3000#16, 0x3000#16]).length = 22 := by decide

/-! ## Assembly lines (30_encoding.md R100, R101) -/

/-- `setkey 0b100101101101 ; k`, mnemonics being case-insensitive. -/
theorem test_asm_setkey :
    assembleLine (['s', 'e', 't', 'k', 'e', 'y', ' ', '0', 'b', '1', '0', '0', '1', '0', '1', '1', '0', '1', '1', '0', '1'] ++
      [' ', ';', ' ', 'k']) = .words [0x196D#16] := by decide
/-- `PUTCH 'c'`, `PUTCH 256`. -/
theorem test_asm_putch :
    assembleLine ['P', 'U', 'T', 'C', 'H', ' ', '\'', 'c', '\''] = .words [0x2063#16] ∧
    assembleLine ['P', 'U', 'T', 'C', 'H', ' ', '2', '5', '6'] = .refused .badChar := by decide
/-- `.word 0x5000`, `BLOCK 0x636F`, `TEXT "co"`. -/
theorem test_asm_other :
    assembleLine ['.', 'w', 'o', 'r', 'd', ' ', '0', 'x', '5', '0', '0', '0'] = .words [0x5000#16] ∧
    assembleLine ['B', 'L', 'O', 'C', 'K', ' ', '0', 'x', '6', '3', '6', 'F'] = .words [0x2063#16, 0x206F#16] ∧
    assembleLine ['T', 'E', 'X', 'T', ' ', '"', 'c', 'o', '"'] = .words [0x2063#16, 0x206F#16, 0x3000#16] := by decide

/-! ## Witnesses: for each statement with hypotheses, states and operands that meet them -/

/-- NopChangesNoRegister: an illegal word of the row, lowest and highest. -/
theorem witness_nop : opField 0x0001#16 = 0x0#4 ∧ argField 0x0001#16 ≠ 0#12 ∧ opField 0x0FFF#16 = 0x0#4 ∧
    argField 0x0FFF#16 ≠ 0#12 := by decide
/-- SetkeyWritesKeyAndNothingElse: a pending character; a block in flight and one waiting. -/
theorem witness_setkey : (pendingState 0x63#8).half = true ∧ (inRun 0 0#12 0#16).cst ≠ .idle ∧
    (inOut 0#16 true).cst ≠ .idle ∧ (pins (inRun 0 0#12 0#16)).rst = false ∧ (pins (inOut 0#16 true)).rst = false := by
  decide
/-- PutchHoldsOrStartsAPair: an illegal word of the row; no character pending, and one. -/
theorem witness_putch : opField 0x2100#16 = 0x2#4 ∧ z4Field 0x2100#16 ≠ 0#4 ∧ z4Field 0x2FFF#16 ≠ 0#4 ∧
    State.reset.half = false ∧ (pendingState 0x00#8).half = true := by decide
/-- FlushStartsAShortBlockOrNothing. -/
theorem witness_flush : opField 0x3800#16 = 0x3#4 ∧ argField 0x3800#16 ≠ 0#12 ∧ State.reset.half = false ∧
    (pendingState 0x63#8).half = true ∧ (pendingState 0x63#8).buf = 0x63#8 := by decide
/-- ClrerrClearsErrIllAndNothingElse. -/
theorem witness_clrerr : State.reset.errIll = false ∧ opField 0x4001#16 = 0x4#4 ∧ argField 0x4001#16 ≠ 0#12 := by decide
/-- IllegalWordSetsErrIllAndNothingElse and IllegalWordsAreExactlyTheThreeCases: each of the three reasons, offered to a
core in IDLE. -/
theorem witness_illegal : decode 0xFFFF#16 = .illegal .unassignedOpcode ∧ decode 0x0001#16 = .illegal .nonzeroZ12 ∧
    decode 0x2100#16 = .illegal .nonzeroZ4 ∧ (offered [0x2100#16]).cst = .idle ∧
    (pins (offered [0x2100#16])).rst = false ∧ (pins (offered [0x2100#16])).cmdValid = true ∧
    decode (pins (offered [0x2100#16])).cmd = .illegal .nonzeroZ4 := by decide
/-- WordIsItsRowExactly and DecodeAndEncodeAgree: the first and last unassigned opcode, and operands at their bounds. -/
theorem witness_rows : 0x5 ≤ (opField 0x5000#16).toNat ∧ 0x5 ≤ (opField 0xFFFF#16).toNat ∧
    decode 0x1FFF#16 = .command (.setkey 0xFFF#12) ∧ decode 0x20FF#16 = .command (.putch 0xFF#8) ∧
    decode 0x1000#16 = .command (.setkey 0x000#12) := by decide
/-- PseudoCommandsExpandToTheirWords. -/
theorem witness_pseudo : State.reset.half = false ∧ (pendingState 0x63#8).half = true := by decide
/-- StepRunsTheDecodedCommand: a word offered in IDLE, with its operand at the bound. -/
theorem witness_step_runs :
    (offered [0x1FFF#16]).cst = .idle ∧ (pins (offered [0x1FFF#16])).rst = false ∧
    (pins (offered [0x1FFF#16])).cmdValid = true ∧
    decode (pins (offered [0x1FFF#16])).cmd = .command (.setkey 0xFFF#12) := by decide
/-- EdgeTakesTheActionOfItsState, IdleEdgeChangesNoRegister, HoldKeepsTheFinishedBlock,
DeliveryEmitsThePairAndGoesIdle, ResetGivesEveryRegisterItsValue: a state for each clause. -/
theorem witness_edges :
    (pins { State.reset with inputs := [resetting] }).rst = true ∧
    ((offered [0x0000#16]).cst = .idle ∧ (pins (offered [0x0000#16])).rst = false ∧
      (pins (offered [0x0000#16])).cmdValid = true) ∧
    (State.reset.cst = .idle ∧ (pins State.reset).rst = false ∧ (pins State.reset).cmdValid = false) ∧
    ((inRun 3 0x65B#12 0x83E4#16).cst = .run ∧ (pins (inRun 3 0x65B#12 0x83E4#16)).rst = false ∧
      (inRun 3 0x65B#12 0x83E4#16).rcnt = 3#5) ∧
    ((inOut 0xA0EC#16 true).cst = .out ∧ (pins (inOut 0xA0EC#16 true)).rst = false ∧
      (pins (inOut 0xA0EC#16 true)).outReady = false) ∧
    ((pins { inOut 0xA0EC#16 true with inputs := [waiting true] }).rst = false ∧
      (pins { inOut 0xA0EC#16 true with inputs := [waiting true] }).outReady = true) := by decide
/-- DeliveryEmitsThePairAndGoesIdle, its example. -/
theorem witness_deliver :
    let s := driven [waiting true] (inOut (encryptBlock tc0 0x636F#16 0x96D#12) false)
    (pins s).rst = false ∧ s.cst = .out ∧ (pins s).outReady = true ∧
      s.block = encryptBlock tc0 0x636F#16 0x96D#12 ∧ s.short = false := ⟨rfl, rfl, rfl, rfl, rfl⟩
/-- ResetGivesEveryRegisterItsValue, its clause about a next state. -/
theorem witness_reset : ∃ t, coreStep tc0 { inRun 5 0x5B6#12 0xFF30#16 with inputs := [resetting] } = .next t :=
  ⟨_, rfl⟩
/-- RoundStepAdvancesBlockAndChain: the first and the last round. -/
theorem witness_round : tc0.wellFormed = true ∧ (inRun 0 0x96D#12 0x636F#16).cst = .run ∧
    (pins (inRun 0 0x96D#12 0x636F#16)).rst = false ∧ (inRun 0 0x96D#12 0x636F#16).rcnt = 0#5 ∧
    (inRun 15 0xB2D#12 0xB3A0#16).rcnt = 15#5 ∧ (inRun 15 0xB2D#12 0xB3A0#16).rcnt.toNat ≤ 15 := by decide
/-- HeldResetStaysAtTheResetState: reset held for one edge and for three. -/
theorem witness_reset_held :
    (∀ j, j < 0 + 1 → (pinsAt j { inRun 5 0x5B6#12 0xFF30#16 with inputs := [resetting] }).rst = true) ∧
    ∀ j, j < 2 + 1 → (pinsAt j { State.reset with inputs := [resetting, resetting, resetting] }).rst = true := by decide
/-- OutputPinsFollowTheState. -/
theorem witness_out_pins : outValid (inOut 0xA0EC#16 true) = true := by decide
/-- HiddenRegistersReachNoPin: the hypothesis names a changed state. -/
theorem witness_hidden : ({ State.reset with key := 0xFFF#12, kchain := 0x96D#12, buf := 0x63#8 } : State) ≠
    State.reset := by decide
/-- TableSelectionTakesTheNamedPositions: the entries of E_TABLE, the first and the last. -/
theorem witness_table : (∀ k ∈ eTable, 1 ≤ k ∧ k ≤ 8) ∧ 0 < eTable.length ∧ 11 < eTable.length := by decide
/-- XorAndPaddingWorkOnElements: a numeral shorter than the width, one at the width, and the largest integer. -/
theorem witness_padding : [true, false, true].length ≤ 4 ∧ [true, true, true, true].length ≤ 4 ∧ 15 < 2 ^ 4 := by decide
/-- SboxIsAddressedByOuterAndInnerBits: two vectors with one row and one column. -/
theorem witness_sbox : sboxRow 0b111111#6 = sboxRow 0b111111#6 ∧ sboxCol 0b111111#6 = sboxCol 0b111111#6 := by decide
/-- SubstitutionLanesDoNotInteract: values that differ in the other lane alone. -/
theorem witness_lanes : (0x000#12).extractLsb' 6 6 = (0x03F#12).extractLsb' 6 6 ∧
    (0x000#12).extractLsb' 0 6 = (0xFC0#12).extractLsb' 0 6 := by decide
/-- WellFormedLookupsFitFourBits, HardwareRecordIsWellFormed, IllFormedRecordHasNoStep. -/
theorem witness_records : tc1.wellFormed = true ∧ ({ tc0 with roundCount := 17 } : Cfg).wellFormed = false := by decide
/-- RotationMovesElementsLeft: the first and the last element. -/
theorem witness_rotation : (0 : Nat) < 6 ∧ (5 : Nat) < 6 := by decide
/-- FeistelRoundFollowsTheEightSteps: V-F1's values, and a record whose S-boxes hold 0 at row 0, column 0. -/
theorem witness_feistel : 0xB5E#12 = expandHalf tc0 ((0x636F#16).extractLsb' 0 8) ∧ 0x329#12 = 0xB5E#12 ^^^ 0x877#12 ∧
    0x64#8 = substitute tc0 0x329#12 ∧ 0x8A#8 = perm8 tc0 0x64#8 ∧ tc0.sboxA 0#2 0#4 = 0 ∧ tc0.sboxB 0#2 0#4 = 0 := by
  decide
/-- RoundTwiceIsNotTheIdentity: the parts of V-F1's block. -/
theorem witness_round_twice : 0x63#8 = (0x636F#16).extractLsb' 8 8 ∧ 0x6F#8 = (0x636F#16).extractLsb' 0 8 ∧
    0xE9#8 = roundFunction tc0 0x6F#8 0x877#12 ^^^ 0x63#8 := by decide
/-- CharactersAreEightBitsMsbFirst: the last code point, the first past it, and both ends of a character. -/
theorem witness_characters : 255 ≤ 255 ∧ 255 < 256 ∧ encodeChar 255 = some 0xFF#8 ∧ 0 < 8 ∧ 7 < 8 := by decide
/-- SegmentCutsConsecutiveChunks: a text of one character has one chunk, of eight bits. -/
theorem witness_segment : 0 < (segmentBits (encodeBits [0x63#8])).length ∧ (encodeBits [0x63#8]).length % 16 ≠ 0 ∧
    (segmentBits (encodeBits [0x63#8])).getLast? = some (encodeBits [0x63#8]) ∧
    encodeBits [0x63#8] ∈ segmentBits (encodeBits [0x63#8]) ∧ (encodeBits [0x63#8]).length < 16 := by decide
/-- FormedBlocksAreTheSegmentedText: the first and last block of three characters. -/
theorem witness_blocks : 0 < (formedBlocks [0x63#8, 0x6F#8, 0x75#8]).length ∧
    1 < (formedBlocks [0x63#8, 0x6F#8, 0x75#8]).length := by decide
/-- KeyIsWrittenBySetkeyAndResetOnly, FlagsChangeOnlyByTheirEvents, OnlyDeliveryEmits, EveryEdgeKeepsTheInvariants: a
step that answers a next state, from a state that meets the invariants. -/
theorem witness_next : (offered [0x196D#16]).Inv ∧ (∃ t, step (offered [0x196D#16]) = .next t) ∧
    ∃ t, step { offered [0x196D#16] with errIll := true } = .next t := ⟨by decide, ⟨_, rfl⟩, ⟨_, rfl⟩⟩
/-- OnlyDeliveryEmits, its clause about runs. -/
theorem witness_run : ∃ t, Host.Core.run Sys2Proof.core 1 (offered [0x196D#16]) = .next t := ⟨_, rfl⟩
/-- ControllerMovesAsListedAndNoOtherWay: a state that meets the invariants for each clause. -/
theorem witness_controller : tc0.wellFormed = true ∧ State.reset.Inv ∧ (pendingState 0x63#8).Inv ∧
    (inRun 0 0x96D#12 0x636F#16).Inv ∧ (inRun 15 0xB2D#12 0xB3A0#16).Inv ∧ (inOut 0xA0EC#16 true).Inv ∧
    (offered [0x3000#16]).Inv ∧ (driven [resetting] State.reset).Inv := by
  refine ⟨?_, ?_, ?_, ?_, ?_, ?_, ?_, ?_⟩ <;> decide
/-- CommandsWaitWhileABlockIsInFlight: a block that waits for two edges. -/
theorem witness_in_flight : (inOut 0xA0EC#16 false).cst ≠ .idle ∧ NoReset 2 (inOut 0xA0EC#16 false) ∧
    ∀ m u, m < 2 → runEdges tc0 m (inOut 0xA0EC#16 false) = .next u → u.cst ≠ .idle := by
  refine ⟨by decide, by decide, fun m u hm h => ?_⟩
  match m, hm with
  | 0, _ => cases h; decide
  | 1, _ => cases h; decide
/-- RunReachesOutAndOutWaits: a block at its first and at its last round, and a host that leaves a word for two edges
and one that takes it. -/
theorem witness_progress :
    (inRun 0 0x96D#12 0x636F#16).Inv ∧ NoReset (16 - (inRun 0 0x96D#12 0x636F#16).rcnt.toNat) (inRun 0 0x96D#12 0x636F#16) ∧
    (inRun 15 0x96D#12 0x636F#16).Inv ∧ NoReset (16 - (inRun 15 0x96D#12 0x636F#16).rcnt.toNat) (inRun 15 0x96D#12 0x636F#16) ∧
    (inOut 0xA0EC#16 false).cst = .out ∧ NoReset 2 (inOut 0xA0EC#16 false) ∧
    (∀ j, j < 2 → (pinsAt j (inOut 0xA0EC#16 false)).outReady = false) ∧
    (pins { inOut 0xA0EC#16 false with inputs := [waiting true] }).rst = false := by decide
/-- RunReachesOutAndOutWaits, its last clause: FLUSH with a character pending leaves IDLE. -/
theorem witness_leaves_idle : (pendingState 0x63#8).cst = .idle ∧
    ∃ t, coreStep tc0 { pendingState 0x63#8 with inputs := [presenting 0x3000#16] } = .next t ∧ t.cst ≠ .idle :=
  ⟨by decide, _, rfl, by decide⟩
/-- BlockTakesItsEdges: FLUSH with a character pending, then a host that is ready at the 17th edge after it. -/
theorem witness_timing :
    let s : State := { pendingState 0x63#8 with inputs := presenting 0x3000#16 :: List.replicate 17 (waiting true) }
    tc0.wellFormed = true ∧ s.cst = .idle ∧ NoReset 18 s ∧ (pins s).cmdValid = true ∧
      startsBlock s.half (pins s).cmd = true ∧ (pinsAt 17 s).outReady = true := by decide
/-- BlockTakesItsEdges, its clause about two PUTCH, and its two bounds. -/
theorem witness_timing_pair :
    let s := driven (presenting 0x2063#16 :: presenting 0x206F#16 :: List.replicate 17 (waiting true)) State.reset
    s.cst = .idle ∧ s.half = false ∧ NoReset 19 s ∧ (pinsAt 0 s).cmdValid = true ∧
      decode (pinsAt 0 s).cmd = .command (.putch 0x63#8) ∧ (pinsAt 1 s).cmdValid = true ∧
      decode (pinsAt 1 s).cmd = .command (.putch 0x6F#8) ∧ (pinsAt 18 s).outReady = true ∧ 2 ≤ 18 ∧ 18 < 19 := by
  decide
/-- StartedBlockIsEncryptedAndDelivered and WordDependsOnBlockAndKeyAlone: a host that takes the block at once and one
that lets it wait two edges, with different states around the same key. -/
theorem witness_taken :
    let s₁ : State := { State.reset with inputs := List.replicate 17 (waiting true) }
    let s₂ : State := { pendingState 0x63#8 with
      errIll := true, inputs := List.replicate 18 (waiting false) ++ [waiting true] }
    tc0.wellFormed = true ∧ s₁.key = s₂.key ∧ NoReset 16 (start 0x636F#16 false s₁) ∧
      TakenAfter 0 (start 0x636F#16 false s₁) ∧ TakenAfter 2 (start 0x636F#16 true s₂) := by decide
/-- MessageIsEncryptedBlockByBlock: a message of one character sent to the reset state, and the empty one. -/
theorem witness_message :
    let s : State := { State.reset with inputs := messageSchedule [0x63#8] ++ [] }
    Settled s ∧ s.inputs = messageSchedule [0x63#8] ++ [] ∧
      (messageSchedule []).length = 1 := by decide
/-- BootThenMessageFromAnyState: a core in the middle of a block. -/
theorem witness_boot :
    let s : State := { inRun 5 0x5B6#12 0xFF30#16 with inputs := bootSchedule 0x96D#12 ++ messageSchedule [0x63#8] ++ [] }
    s.inputs = bootSchedule 0x96D#12 ++ messageSchedule [0x63#8] ++ [] := by decide

end Sys2Proof.Tests
end

section
/-! PROOFS. The statements of 00_scope.md: table selections, the checks of a configuration record, and this hardware's
tables. -/

namespace Sys2Proof

section Checks

theorem positionsWithin_iff {w : Nat} {t : List Nat} : positionsWithin w t = true ↔ ∀ k ∈ t, 1 ≤ k ∧ k ≤ w := by
  simp [positionsWithin]

/-- The check runs over row and column numbers, and every row and column is the value of one of them. -/
theorem sboxInRange_iff {box : BitVec 2 → BitVec 4 → Nat} :
    sboxInRange box = true ↔ ∀ row col, box row col ≤ 15 := by
  simp only [sboxInRange, List.all_eq_true, List.mem_range, decide_eq_true_eq]
  constructor
  · intro h row col
    simpa using h row.toNat row.isLt col.toNat col.isLt
  · intro h r _ k _
    exact h _ _

namespace CfgCheck

theorem mem_all (k : CfgCheck) : k ∈ all := by cases k <;> decide

end CfgCheck

namespace Cfg

variable {c : Cfg}

theorem wellFormed_iff_passes : c.wellFormed = true ↔ ∀ k, c.passes k = true := by
  simp [wellFormed, CfgCheck.mem_all]

/-- The nine checks of 00_scope.md R27, each as what it says of the record. -/
theorem wellFormed_iff : c.wellFormed = true ↔
    c.eTable.length = 12 ∧ (∀ k ∈ c.eTable, 1 ≤ k ∧ k ≤ 8) ∧
    c.pTable.length = 8 ∧ (∀ k ∈ c.pTable, 1 ≤ k ∧ k ≤ 8) ∧
    c.kTable.length = 12 ∧ (∀ k ∈ c.kTable, 1 ≤ k ∧ k ≤ 12) ∧
    (∀ r ∈ c.shift1Set, 1 ≤ r ∧ r ≤ 16) ∧ c.roundCount = 16 ∧
    ∀ (row : BitVec 2) (col : BitVec 4), c.sboxA row col ≤ 15 ∧ c.sboxB row col ≤ 15 := by
  simp only [wellFormed, CfgCheck.all, List.all_cons, List.all_nil, passes, Bool.and_eq_true, Bool.and_true,
    decide_eq_true_eq, positionsWithin_iff, sboxInRange_iff, forall_and]

theorem firstFailing_eq_none_iff : c.firstFailing = none ↔ c.wellFormed = true := by
  simp [firstFailing, wellFormed_iff_passes, CfgCheck.mem_all]

/-- The check a build names is one the record fails. -/
theorem passes_of_firstFailing {k : CfgCheck} (h : c.firstFailing = some k) : c.passes k = false := by
  simpa using List.find?_some h

end Cfg

end Checks

namespace Machine

section Build

variable {c : Cfg}

/-- A well-formed record builds the core, whose step is the edge (R27). -/
theorem stepOf_wellFormed (h : c.wellFormed = true) (s : State) : stepOf c s = coreStep c s := by
  simp [stepOf, buildRefusal, Cfg.firstFailing_eq_none_iff.mpr h]

/-- A failed check refuses the build in every state (R27, 60_exceptions.md R263). -/
theorem stepOf_firstFailing {k : CfgCheck} (h : c.firstFailing = some k) (s : State) :
    stepOf c s = .refused (.configurationError k) := by
  simp [stepOf, buildRefusal, h]

theorem exists_firstFailing (h : c.wellFormed = false) : ∃ k, c.firstFailing = some k := by
  cases hf : c.firstFailing with
  | none => simp [Cfg.firstFailing_eq_none_iff.mp hf] at h
  | some k => exact ⟨k, rfl⟩

/-- The tables and the round count of this hardware pass their checks by computation; an S-box of 4-bit entries holds
no entry above 15, whatever they are. -/
theorem hardwareWith_romOf_wellFormed (a b : BitVec 2 → BitVec 4 → SboxOut) :
    (hardwareWith (romOf a) (romOf b)).wellFormed = true := by
  refine Cfg.wellFormed_iff.mpr ⟨rfl, positionsWithin_iff.mp rfl, rfl, positionsWithin_iff.mp rfl, rfl,
    positionsWithin_iff.mp rfl, positionsWithin_iff.mp rfl, rfl, fun row col => ⟨?_, ?_⟩⟩
  · exact Nat.le_of_lt_succ (a row col).isLt
  · exact Nat.le_of_lt_succ (b row col).isLt

theorem hardwareCfg_wellFormed : hardwareCfg.wellFormed = true :=
  hardwareWith_romOf_wellFormed Config.sboxA Config.sboxB

end Build

section Selections

/-- Element `i` of a value is bit `w - 1 - i` (00_scope.md R6). -/
theorem seqElem_eq_getLsbD {w i : Nat} (v : BitVec w) (h : i < w) : seqElem v i = v.getLsbD (w - 1 - i) := by
  simp [seqElem, BitVec.getMsbD, h]

/-- The element at position `t` of a value is bit `w - t` (00_scope.md R8). -/
theorem posElem_eq_getLsbD {w t : Nat} (v : BitVec w) (h : 1 ≤ t ∧ t ≤ w) : posElem v t = v.getLsbD (w - t) := by
  rw [posElem, seqElem_eq_getLsbD v (by omega), show w - 1 - (t - 1) = w - t by omega]

/-- The table that lists the positions in order selects the value itself. -/
theorem tableSelect_identity {w : Nat} (x : BitVec w) : tableSelect w (List.range' 1 w) x = x := by
  refine BitVec.eq_of_getMsbD_eq fun i hi => ?_
  rw [tableSelect_getMsbD x (by simp) i (by simpa using hi)]
  simp [posElem, seqElem]

end Selections

/-- Settles O24: the entry of a table names an element of the input, and elements are bits counted from the left. -/
theorem tableSelectionTakesTheNamedPositions : Obligations.TableSelectionTakesTheNamedPositions := by
  unfold Obligations.TableSelectionTakesTheNamedPositions
  refine ⟨fun w table x i hi hrange => ?_, fun w x => tableSelect_identity x⟩
  have hsel : seqElem (tableSelect table.length table x) i = posElem x table[i] := tableSelect_getMsbD x rfl i hi
  refine ⟨hsel, ?_⟩
  rw [← seqElem_eq_getLsbD _ hi, hsel, posElem_eq_getLsbD x (hrange _ (List.getElem_mem hi))]

/-- Settles O50: the build's search for a failed check finds one exactly when the record is ill formed. -/
theorem illFormedRecordHasNoStep : Obligations.IllFormedRecordHasNoStep := by
  unfold Obligations.IllFormedRecordHasNoStep
  refine ⟨fun c => Cfg.wellFormed_iff, fun c s h => ?_, fun c s h => stepOf_wellFormed h s⟩
  obtain ⟨k, hk⟩ := exists_firstFailing h
  exact ⟨k, Cfg.passes_of_firstFailing hk, stepOf_firstFailing hk s⟩

/-- Settles O51: this hardware's record is its tables with ROMs of 4-bit entries, well formed for any contents. -/
theorem hardwareRecordIsWellFormed : Obligations.HardwareRecordIsWellFormed :=
  ⟨hardwareCfg_wellFormed, hardwareWith_romOf_wellFormed, stepOf_wellFormed hardwareCfg_wellFormed, run_core⟩

/-- Settles O52: the tables are closed data, so each fact is computed from their values. -/
theorem tablesHaveTheirListedFacts : Obligations.TablesHaveTheirListedFacts := by
  unfold Obligations.TablesHaveTheirListedFacts
  refine ⟨rfl, rfl, rfl, rfl, fun r => ?_, rfl, rfl, ?_, ?_, rfl⟩
  · simp [hardwareCfg, shift1Set]
  · show pTable.Perm (List.range' 1 8)
    decide
  · show kTable.Perm (List.range' 1 12)
    decide

end Machine

end Sys2Proof
end

section
/-! PROOFS. The statements of 10_state.md: the status word and the pins, which events write KEY, the flags and the
controller, and the invariants of reachable states. -/

namespace Sys2Proof.Machine

section Pins

theorem cmdReady_iff {s : State} : cmdReady s = true ↔ s.cst = .idle := decide_eq_true_iff

theorem outValid_iff {s : State} : outValid s = true ↔ s.cst = .out := decide_eq_true_iff

theorem outData_of_outValid {s : State} (h : outValid s = true) : outData s = s.block := if_pos h

theorem outShort_of_outValid {s : State} (h : outValid s = true) : outShort s = s.short := if_pos h

theorem commandAccepted_iff {s : State} :
    commandAccepted s = true ↔ (pins s).rst = false ∧ (pins s).cmdValid = true ∧ s.cst = .idle := by
  simp [commandAccepted, cmdReady, and_assoc]

theorem wordDelivered_iff {s : State} :
    wordDelivered s = true ↔ (pins s).rst = false ∧ s.cst = .out ∧ (pins s).outReady = true := by
  simp [wordDelivered, outValid, and_assoc]

/-- Outside IDLE no command is accepted (45_controller.md R208). -/
theorem commandAccepted_of_ne_idle {s : State} (h : s.cst ≠ .idle) : commandAccepted s = false := by
  simp [commandAccepted, cmdReady, h]

/-- Outside OUT no word is delivered. -/
theorem wordDelivered_of_ne_out {s : State} (h : s.cst ≠ .out) : wordDelivered s = false := by
  simp [wordDelivered, outValid, h]

end Pins

section Words

/-- What an accepted word does, one constructor per outcome of 46_commands.md R235 and R236: a command's effect by the
flag HALF before it, or the effect of an illegal word. -/
inductive WordEffect (cw : Word) (s : State) : State → Prop where
  | nop (hd : decode cw = .command .nop) : WordEffect cw s s
  | setkey {k : Key} (hd : decode cw = .command (.setkey k)) : WordEffect cw s (writeKey k s)
  | putchFirst {ch : Char8} (hd : decode cw = .command (.putch ch)) (hh : s.half = false) :
      WordEffect cw s (holdChar ch s)
  | putchSecond {ch : Char8} (hd : decode cw = .command (.putch ch)) (hh : s.half = true) :
      WordEffect cw s (start (pairBlock s.buf ch) false s)
  | flushEmpty (hd : decode cw = .command .flush) (hh : s.half = false) : WordEffect cw s s
  | flushPending (hd : decode cw = .command .flush) (hh : s.half = true) :
      WordEffect cw s (start (shortBlock s.buf) true s)
  | clrerr (hd : decode cw = .command .clrerr) : WordEffect cw s (clearErrIll s)
  | illegal {why : IllegalWhy} (hd : decode cw = .illegal why) : WordEffect cw s (setErrIll s)

variable {cw : Word} {s t : State}

theorem WordEffect.execWord_eq (h : WordEffect cw s t) : execWord cw s = .next t := by
  cases h with
  | nop hd => rw [execWord_command hd, exec, execNop_eq]
  | setkey hd => rw [execWord_command hd, exec, execSetkey_eq]
  | putchFirst hd hh => rw [execWord_command hd, exec, execPutch_first _ hh]
  | putchSecond hd hh => rw [execWord_command hd, exec, execPutch_second _ hh]
  | flushEmpty hd hh => rw [execWord_command hd, exec, execFlush_empty hh]
  | flushPending hd hh => rw [execWord_command hd, exec, execFlush_pending hh]
  | clrerr hd => rw [execWord_command hd, exec, execClrerr_eq]
  | illegal hd => exact execWord_illegal hd s

theorem exists_wordEffect (cw : Word) (s : State) : ∃ t, WordEffect cw s t := by
  cases hd : decode cw with
  | illegal why => exact ⟨_, .illegal hd⟩
  | command i =>
    cases i with
    | nop => exact ⟨_, .nop hd⟩
    | setkey k => exact ⟨_, .setkey hd⟩
    | putch ch =>
      cases hh : s.half with
      | false => exact ⟨_, .putchFirst hd hh⟩
      | true => exact ⟨_, .putchSecond hd hh⟩
    | flush =>
      cases hh : s.half with
      | false => exact ⟨_, .flushEmpty hd hh⟩
      | true => exact ⟨_, .flushPending hd hh⟩
    | clrerr => exact ⟨_, .clrerr hd⟩

/-- An accepted word has exactly one effect, and `execWord` answers it. -/
theorem execWord_eq_next_iff : execWord cw s = .next t ↔ WordEffect cw s t := by
  refine ⟨fun h => ?_, WordEffect.execWord_eq⟩
  obtain ⟨u, hu⟩ := exists_wordEffect cw s
  rw [hu.execWord_eq] at h
  cases h
  exact hu

/-- The flag SHORT after an accepted word that finds a character pending (46_commands.md R232, R233). -/
def shortAfter (short : Bool) (cw : Word) : Bool :=
  match decode cw with
  | .command (.putch _) => false
  | .command .flush     => true
  | _                   => short

/-- The flag ERR_ILL after an accepted word (46_commands.md R234, R235). -/
def errIllAfter (errIll : Bool) (cw : Word) : Bool :=
  match decode cw with
  | .illegal _       => true
  | .command .clrerr => false
  | _                => errIll

namespace WordEffect

/-- SETKEY alone writes KEY (10_state.md R32). -/
theorem key_eq (h : WordEffect cw s t) :
    (∃ k, decode cw = .command (.setkey k) ∧ t.key = k) ∨ t.key = s.key := by
  cases h with
  | setkey hd => exact .inl ⟨_, hd, rfl⟩
  | _ => exact .inr rfl

theorem half_eq (h : WordEffect cw s t) : t.half = halfAfter s.half cw := by
  cases h <;> simp [halfAfter, *]

theorem short_eq (h : WordEffect cw s t) :
    t.short = if s.half then shortAfter s.short cw else s.short := by
  cases h <;> simp [shortAfter, *]

theorem errIll_eq (h : WordEffect cw s t) : t.errIll = errIllAfter s.errIll cw := by
  cases h <;> simp [errIllAfter, *]

/-- No word reads ERR_ILL (10_state.md R38): with another value of it, the effect differs in ERR_ILL at most. -/
theorem ignores_errIll (h : WordEffect cw s t) (flag : Bool) :
    ∃ e, WordEffect cw { s with errIll := flag } { t with errIll := e } := by
  cases h with
  | nop hd => exact ⟨flag, .nop hd⟩
  | setkey hd => exact ⟨flag, .setkey hd⟩
  | putchFirst hd hh => exact ⟨flag, .putchFirst hd hh⟩
  | putchSecond hd hh => exact ⟨flag, .putchSecond hd hh⟩
  | flushEmpty hd hh => exact ⟨flag, .flushEmpty hd hh⟩
  | flushPending hd hh => exact ⟨flag, .flushPending hd hh⟩
  | clrerr hd => exact ⟨false, .clrerr hd⟩
  | illegal hd => exact ⟨true, .illegal hd⟩

/-- A word that starts a block enters RUN with RCNT = 0 (10_state.md R42). -/
theorem controller_of_starts (h : WordEffect cw s t) (hb : startsBlock s.half cw = true) :
    t.cst = .run ∧ t.rcnt = 0#5 := by
  cases h <;> simp_all [startsBlock]

/-- A word that starts no block leaves CST and RCNT alone. -/
theorem controller_of_not_starts (h : WordEffect cw s t) (hb : startsBlock s.half cw = false) :
    t.cst = s.cst ∧ t.rcnt = s.rcnt := by
  cases h <;> simp_all [startsBlock]

end WordEffect

end Words

section Events

/-- What an edge does, by its events: reset, a word accepted, a word delivered, a round, or none of these (the idle
edges and the held ones of 45_controller.md R203 and R205). Each constructor says of both handshakes whether they
happen. -/
inductive EdgeEvent (c : Cfg) (s : State) : State → Prop where
  | reset (hr : (pins s).rst = true) : EdgeEvent c s (resetRegisters (clocked s))
  | accepted {t : State} (hr : (pins s).rst = false) (hc : s.cst = .idle) (ha : commandAccepted s = true)
      (hd : wordDelivered s = false) (hw : WordEffect (pins s).cmd (clocked s) t) : EdgeEvent c s t
  | delivered (hr : (pins s).rst = false) (hc : s.cst = .out) (ha : commandAccepted s = false)
      (hd : wordDelivered s = true) : EdgeEvent c s (deliver (clocked s))
  | round (hr : (pins s).rst = false) (hc : s.cst = .run) (ha : commandAccepted s = false)
      (hd : wordDelivered s = false) : EdgeEvent c s (roundStep c (clocked s))
  | quiet (hr : (pins s).rst = false) (hc : s.cst ≠ .run) (ha : commandAccepted s = false)
      (hd : wordDelivered s = false) : EdgeEvent c s (clocked s)

variable {c : Cfg} {s t : State}

theorem exists_edgeEvent (c : Cfg) (s : State) : ∃ t, EdgeEvent c s t := by
  cases hr : (pins s).rst with
  | true => exact ⟨_, .reset hr⟩
  | false =>
    cases hc : s.cst with
    | idle =>
      have hd : wordDelivered s = false := wordDelivered_of_ne_out (by simp [hc])
      cases ha : commandAccepted s with
      | false => exact ⟨_, .quiet hr (by simp [hc]) ha hd⟩
      | true =>
        obtain ⟨t, hw⟩ := exists_wordEffect (pins s).cmd (clocked s)
        exact ⟨t, .accepted hr hc ha hd hw⟩
    | run =>
      exact ⟨_, .round hr hc (commandAccepted_of_ne_idle (by simp [hc])) (wordDelivered_of_ne_out (by simp [hc]))⟩
    | out =>
      have ha : commandAccepted s = false := commandAccepted_of_ne_idle (by simp [hc])
      cases hd : wordDelivered s with
      | false => exact ⟨_, .quiet hr (by simp [hc]) ha hd⟩
      | true => exact ⟨_, .delivered hr hc ha hd⟩

theorem EdgeEvent.coreStep_eq (h : EdgeEvent c s t) : coreStep c s = .next t := by
  cases h with
  | reset hr => exact coreStep_reset hr
  | accepted hr hc ha hd hw =>
    obtain ⟨-, hv, -⟩ := commandAccepted_iff.mp ha
    rw [coreStep_word hr hc hv, hw.execWord_eq]
  | delivered hr hc ha hd =>
    obtain ⟨-, -, ho⟩ := wordDelivered_iff.mp hd
    exact coreStep_deliver hr hc ho
  | round hr hc ha hd => exact coreStep_run hr hc
  | quiet hr hc ha hd =>
    cases hcst : s.cst with
    | idle => exact coreStep_idle hr hcst (by simpa [commandAccepted, cmdReady, hr, hcst] using ha)
    | run => exact absurd hcst hc
    | out => exact coreStep_hold hr hcst (by simpa [wordDelivered, outValid, hr, hcst] using hd)

/-- An edge is exactly one event, and `coreStep` answers it. -/
theorem coreStep_eq_next_iff : coreStep c s = .next t ↔ EdgeEvent c s t := by
  refine ⟨fun h => ?_, EdgeEvent.coreStep_eq⟩
  obtain ⟨u, hu⟩ := exists_edgeEvent c s
  rw [hu.coreStep_eq] at h
  cases h
  exact hu

namespace EdgeEvent

/-- An accepted SETKEY and reset alone write KEY (10_state.md R32). -/
theorem key_cases (h : EdgeEvent c s t) :
    ((pins s).rst = true ∧ t.key = 0x000#12) ∨
    (∃ k, commandAccepted s = true ∧ decode (pins s).cmd = .command (.setkey k) ∧ t.key = k) ∨
    t.key = s.key := by
  cases h with
  | reset hr => exact .inl ⟨hr, rfl⟩
  | accepted hr hc ha hd hw =>
    obtain ⟨k, hk, ht⟩ | ht := hw.key_eq
    · exact .inr (.inl ⟨k, ha, hk, ht⟩)
    · exact .inr (.inr ht)
  | delivered | round | quiet => exact .inr (.inr rfl)

theorem half_eq (h : EdgeEvent c s t) :
    t.half = if (pins s).rst then false else if commandAccepted s then halfAfter s.half (pins s).cmd else s.half := by
  cases h with
  | accepted hr hc ha hd hw => simp [hr, ha, hw.half_eq]
  | _ => simp [*]

theorem short_eq (h : EdgeEvent c s t) :
    t.short = if (pins s).rst || wordDelivered s then false
      else if commandAccepted s && s.half then shortAfter s.short (pins s).cmd else s.short := by
  cases h with
  | accepted hr hc ha hd hw => cases hh : s.half <;> simp [hr, ha, hd, hh, hw.short_eq]
  | _ => simp [*]

theorem errIll_eq (h : EdgeEvent c s t) :
    t.errIll = if (pins s).rst then false
      else if commandAccepted s then errIllAfter s.errIll (pins s).cmd else s.errIll := by
  cases h with
  | accepted hr hc ha hd hw => simp [hr, ha, hw.errIll_eq]
  | _ => simp [*]

/-- No action reads ERR_ILL (10_state.md R38): with another value of it, the next state differs in ERR_ILL at most. -/
theorem ignores_errIll (h : EdgeEvent c s t) (flag : Bool) :
    ∃ e, EdgeEvent c { s with errIll := flag } { t with errIll := e } := by
  cases h with
  | reset hr => exact ⟨false, .reset hr⟩
  | accepted hr hc ha hd hw =>
    obtain ⟨e, he⟩ := hw.ignores_errIll flag
    exact ⟨e, .accepted hr hc ha hd he⟩
  | delivered hr hc ha hd => exact ⟨flag, .delivered hr hc ha hd⟩
  | round hr hc ha hd => exact ⟨flag, .round hr hc ha hd⟩
  | quiet hr hc ha hd => exact ⟨flag, .quiet hr hc ha hd⟩

end EdgeEvent

end Events

section Invariants

variable {c : Cfg} {s t : State}

/-- The state after a reset edge meets the invariants (10_state.md R49, R50). -/
theorem resetRegisters_inv (s : State) : (resetRegisters s).Inv := by simp [State.Inv]

/-- A block that starts meets the invariants, whatever was there before. -/
theorem start_inv (blk : Block) (short : Bool) (s : State) : (start blk short s).Inv := by simp [State.Inv]

/-- Holding a character keeps the invariants in IDLE, the one state in which they allow HALF = 1. -/
theorem holdChar_inv (ch : Char8) (hc : s.cst = .idle) (hs : s.Inv) : (holdChar ch s).Inv := by
  obtain ⟨-, hidle, -, -, -⟩ := hs
  simp [State.Inv, hc, hidle hc]

/-- A delivery leaves IDLE's values, and the character pending is as before. -/
theorem deliver_inv (hs : s.Inv) : (deliver s).Inv := by
  obtain ⟨-, -, -, -, hbuf⟩ := hs
  simpa [State.Inv] using hbuf

/-- In RUN the count of rounds goes up by one without wrapping (10_state.md R41). -/
theorem roundStep_rcnt_toNat (hc : s.cst = .run) (hs : s.Inv) :
    (roundStep c s).rcnt.toNat = s.rcnt.toNat + 1 := by
  obtain ⟨-, -, hrun, -, -⟩ := hs
  have hle : s.rcnt.toNat ≤ 15 := (hrun hc).1
  rw [roundStep_rcnt, BitVec.toNat_ofNat, Nat.mod_eq_of_lt (by omega)]

/-- A well-formed core leaves RUN at the step from RCNT = 15, its sixteenth round (10_state.md R42). -/
theorem roundStep_cst_last (hw : c.wellFormed = true) (hlast : s.rcnt = 15#5) : (roundStep c s).cst = .out := by
  obtain ⟨-, -, -, -, -, -, -, hrounds, -⟩ := Cfg.wellFormed_iff.mp hw
  simp [hrounds, hlast]

/-- A well-formed core stays in RUN at every earlier step. -/
theorem roundStep_cst_of_ne_last (hw : c.wellFormed = true) (hne : s.rcnt ≠ 15#5) :
    (roundStep c s).cst = s.cst := by
  obtain ⟨-, -, -, -, -, -, -, hrounds, -⟩ := Cfg.wellFormed_iff.mp hw
  have hcount : s.rcnt.toNat + 1 ≠ 16 := by bv_omega
  rw [roundStep_cst, hrounds, if_neg hcount]

/-- A round keeps the invariants: it stays in RUN up to RCNT = 15 and enters OUT with RCNT = 16. -/
theorem roundStep_inv (hw : c.wellFormed = true) (hc : s.cst = .run) (hs : s.Inv) : (roundStep c s).Inv := by
  have hrcnt := roundStep_rcnt_toNat (c := c) hc hs
  obtain ⟨-, -, hrun, -, hbuf⟩ := hs
  obtain ⟨hle, hhalf⟩ := hrun hc
  unfold State.Inv
  by_cases hlast : s.rcnt = 15#5
  · rw [roundStep_cst_last hw hlast]
    exact ⟨by omega, nofun, nofun, fun _ => ⟨by simp [hlast], hhalf⟩, hbuf⟩
  · rw [roundStep_cst_of_ne_last hw hlast, hc]
    exact ⟨by omega, nofun, fun _ => ⟨by bv_omega, hhalf⟩, nofun, hbuf⟩

theorem WordEffect.inv {cw : Word} (h : WordEffect cw s t) (hc : s.cst = .idle) (hs : s.Inv) : t.Inv := by
  cases h with
  | putchFirst hd hh => exact holdChar_inv _ hc hs
  | putchSecond | flushPending => exact start_inv _ _ s
  | nop | setkey | flushEmpty | clrerr | illegal => exact hs

theorem EdgeEvent.inv (h : EdgeEvent c s t) (hw : c.wellFormed = true) (hs : s.Inv) : t.Inv := by
  have hclocked : (clocked s).Inv := hs
  cases h with
  | reset hr => exact resetRegisters_inv _
  | accepted hr hc ha hd hword => exact hword.inv hc hclocked
  | delivered hr hc ha hd => exact deliver_inv hclocked
  | round hr hc ha hd => exact roundStep_inv hw hc hclocked
  | quiet hr hc ha hd => exact hclocked

/-- A property that every edge keeps holds after any number of edges, and there is a state after them. -/
theorem runEdges_keeps {P : State → Prop} (hstep : ∀ s t, P s → coreStep c s = .next t → P t) (k : Nat)
    (hs : P s) : ∃ t, runEdges c k s = .next t ∧ P t := by
  induction k generalizing s with
  | zero => exact ⟨s, rfl, hs⟩
  | succ k ih =>
    obtain ⟨u, hu⟩ := exists_edgeEvent c s
    rw [runEdges_succ k hu.coreStep_eq]
    exact ih (hstep s u hs hu.coreStep_eq)

end Invariants

/-- Settles O54: an edge is one event, and each event keeps the invariants. -/
theorem everyEdgeKeepsTheInvariants : Obligations.EveryEdgeKeepsTheInvariants := by
  have keeps (c : Cfg) (s t : State) (hw : c.wellFormed = true) (hs : s.Inv) (h : coreStep c s = .next t) : t.Inv :=
    (coreStep_eq_next_iff.mp h).inv hw hs
  exact ⟨fun s t => keeps hardwareCfg s t hardwareCfg_wellFormed, keeps⟩

/-- Settles O53: the reset state is IDLE with every register 0. -/
theorem resetMeetsTheInvariants : Obligations.ResetMeetsTheInvariants := by
  unfold Obligations.ResetMeetsTheInvariants
  decide

/-- Settles O55: the invariants hold at reset and every edge keeps them, so a run of any length meets them. -/
theorem reachableStatesMeetTheInvariants : Obligations.ReachableStatesMeetTheInvariants := by
  unfold Obligations.ReachableStatesMeetTheInvariants
  intro k ins
  have hreset : State.Inv { State.reset with inputs := ins } := resetMeetsTheInvariants
  obtain ⟨t, ht, hinv⟩ := runEdges_keeps everyEdgeKeepsTheInvariants.1 k hreset
  have hcode : t.cst.code ≠ 0b11#2 := by cases t.cst <;> decide
  exact ⟨t, (run_core k _).trans ht, hcode, hinv⟩

/-- Settles O43: of the events of an edge, reset and an accepted SETKEY alone write KEY. -/
theorem keyIsWrittenBySetkeyAndResetOnly : Obligations.KeyIsWrittenBySetkeyAndResetOnly :=
  fun _ _ h => (coreStep_eq_next_iff.mp h).key_cases

/-- Settles O21: the status word is a concatenation, and each field is the part at its place. -/
theorem statusWordShowsItsFields : Obligations.StatusWordShowsItsFields := by
  unfold Obligations.StatusWordShowsItsFields
  intro s
  refine ⟨?_, ?_, ?_, ?_, ?_, extract_middle _ s.rcnt _, extract_high (0#6) _⟩
  -- The concatenation is taken apart before `simp` adds up the widths, on which `getLsbD_append` depends.
  all_goals
    refine BitVec.getLsbD_append.trans ?_
    simp only [BitVec.getLsbD_append]
    simp [busy, outv]

/-- Settles O44: each flag's value after an edge is read off the event of the edge, and no event reads ERR_ILL. -/
theorem flagsChangeOnlyByTheirEvents : Obligations.FlagsChangeOnlyByTheirEvents := by
  unfold Obligations.FlagsChangeOnlyByTheirEvents
  refine ⟨fun s t h => ?_, fun s t u flag ht hu => ?_, fun s => ?_⟩
  · have he : EdgeEvent hardwareCfg s t := coreStep_eq_next_iff.mp h
    exact ⟨he.half_eq, he.short_eq, he.errIll_eq⟩
  · obtain ⟨e, he⟩ := (coreStep_eq_next_iff.mp ht).ignores_errIll flag
    cases he.coreStep_eq.symm.trans hu
    rfl
  · obtain ⟨-, -, hhalf, hshort, herr, -, -⟩ := statusWordShowsItsFields s
    exact ⟨hhalf, hshort, herr⟩

/-- Settles O45: every edge is one event, and each event moves CST and RCNT by its listed transition or not at all. -/
theorem controllerMovesAsListedAndNoOtherWay : Obligations.ControllerMovesAsListedAndNoOtherWay := by
  unfold Obligations.ControllerMovesAsListedAndNoOtherWay
  intro c s hw hs
  have hclocked : (clocked s).Inv := hs
  obtain ⟨-, hidle, -, hout, -⟩ := hs
  obtain ⟨t, he⟩ := exists_edgeEvent c s
  refine ⟨t, he.coreStep_eq, ?_⟩
  cases he with
  | reset hr => simp [hr]
  | accepted hr hc ha hd hword =>
    cases hb : startsBlock s.half (pins s).cmd with
    | true =>
      obtain ⟨hcst, hrcnt⟩ := hword.controller_of_starts hb
      simp [hr, hc, ha, hcst, hrcnt]
    | false =>
      obtain ⟨hcst, hrcnt⟩ := hword.controller_of_not_starts hb
      simp [hr, hc, ha, hcst, hrcnt, hidle hc]
  | delivered hr hc ha hd =>
    obtain ⟨-, -, ho⟩ := wordDelivered_iff.mp hd
    simp [hr, hc, ho]
  | round hr hc ha hd =>
    refine ⟨by simp [hr], by simp [hc], fun _ _ => ⟨roundStep_rcnt_toNat hc hclocked, ?_⟩, by simp [hc]⟩
    split
    next hlast => exact roundStep_cst_last hw hlast
    next hne => exact (roundStep_cst_of_ne_last hw hne).trans hc
  | quiet hr hc ha hd =>
    cases hcst : s.cst with
    | idle => simp [hr, hcst, ha, hidle hcst]
    | run => exact absurd hcst hc
    | out =>
      have ho : (pins s).outReady = false := by simpa [wordDelivered, outValid, hr, hcst] using hd
      simp [hr, hcst, ho, hout hcst]

/-- Settles O22: the pins are decided by CST, and while it is OUT the data pins show what the hardware drives. -/
theorem outputPinsFollowTheState : Obligations.OutputPinsFollowTheState :=
  fun _ => ⟨cmdReady_iff, outValid_iff, rfl, rfl, fun h => ⟨outData_of_outValid h, outShort_of_outValid h⟩⟩

/-- Settles O23: the pins and the status word are functions of the other registers and of the edge count. -/
theorem hiddenRegistersReachNoPin : Obligations.HiddenRegistersReachNoPin := by
  unfold Obligations.HiddenRegistersReachNoPin
  rintro s k chain char t rfl
  exact ⟨rfl, rfl, rfl, rfl, rfl⟩

end Sys2Proof.Machine
end

section
/-! PROOFS. The statement of 20_memory.md: the state of a started block after each of its rounds, how long it waits in
OUT, and the word it delivers. -/

namespace Sys2Proof.Machine

section Elapsed

/-- `n` edges have passed and no register has changed. -/
def elapsed (n : Nat) (s : State) : State := { s with inputs := s.inputs.drop n, edges := s.edges + n }

variable {c : Cfg} {s t u : State}

@[simp] theorem elapsed_cst (n : Nat) (s : State) : (elapsed n s).cst = s.cst := rfl
@[simp] theorem elapsed_block (n : Nat) (s : State) : (elapsed n s).block = s.block := rfl
@[simp] theorem elapsed_short (n : Nat) (s : State) : (elapsed n s).short = s.short := rfl
@[simp] theorem elapsed_emitted (n : Nat) (s : State) : (elapsed n s).emitted = s.emitted := rfl

@[simp] theorem elapsed_zero (s : State) : elapsed 0 s = s := rfl

theorem clocked_elapsed (n : Nat) (s : State) : clocked (elapsed n s) = elapsed (n + 1) s := by
  simp [clocked, elapsed, Nat.add_assoc]

/-- After `n` edges every later edge is `n` nearer. -/
theorem pinsAt_of_inputs_drop {n : Nat} (h : t.inputs = s.inputs.drop n) (k : Nat) : pinsAt k t = pinsAt (n + k) s := by
  simp [pinsAt, h, List.getD_eq_getElem?_getD]

/-- The pins of the edge after a run of `n` edges. -/
theorem pins_of_inputs_drop {n : Nat} (h : t.inputs = s.inputs.drop n) : pins t = pinsAt n s := by
  rw [← pinsAt_zero, pinsAt_of_inputs_drop h, Nat.add_zero]

/-- A run goes on by one edge. -/
theorem runEdges_next {n : Nat} (h : runEdges c n s = .next t) (hstep : coreStep c t = .next u) :
    runEdges c (n + 1) s = .next u := by
  rw [runEdges_add h, runEdges_succ 0 hstep, runEdges_zero]

/-- A finished block waits in OUT, every register unchanged, for as long as the host is not ready
(45_controller.md R205). -/
theorem runEdges_hold (n : Nat) (hc : s.cst = .out) (hr : NoReset n s)
    (ho : ∀ j, j < n → (pinsAt j s).outReady = false) : runEdges c n s = .next (elapsed n s) := by
  induction n with
  | zero => rw [elapsed_zero, runEdges_zero]
  | succ n ih =>
    have hrun : runEdges c n s = .next (elapsed n s) := ih (fun j hj => hr j (by omega)) fun j hj => ho j (by omega)
    have hpins : pins (elapsed n s) = pinsAt n s := pins_of_inputs_drop rfl
    have hrst : (pins (elapsed n s)).rst = false := by rw [hpins]; exact hr n (by omega)
    have hnot : (pins (elapsed n s)).outReady = false := by rw [hpins]; exact ho n (by omega)
    exact runEdges_next hrun ((coreStep_hold hrst hc hnot).trans (by rw [clocked_elapsed]))

/-- A finished block is delivered at the first edge at which the host is ready (45_controller.md R206). -/
theorem runEdges_hold_deliver (n : Nat) (hc : s.cst = .out) (hr : NoReset (n + 1) s)
    (ho : ∀ j, j < n → (pinsAt j s).outReady = false) (hready : (pinsAt n s).outReady = true) :
    runEdges c (n + 1) s = .next (deliver (elapsed (n + 1) s)) := by
  have hhold : runEdges c n s = .next (elapsed n s) := runEdges_hold n hc (fun j hj => hr j (by omega)) ho
  have hpins : pins (elapsed n s) = pinsAt n s := pins_of_inputs_drop rfl
  have hrst : (pins (elapsed n s)).rst = false := by rw [hpins]; exact hr n (by omega)
  exact runEdges_next hhold ((coreStep_deliver hrst hc (by rw [hpins, hready])).trans (by rw [clocked_elapsed]))

end Elapsed

section Pass

/-- The state `r` edges after `start blk short s`, while no reset is asserted: rounds 1..`r` of the pass are done. -/
def afterRounds (c : Cfg) (blk : Block) (short : Bool) (r : Nat) (s : State) : State :=
  elapsed r { start blk short s with
    cst := if r = c.roundCount then .out else .run
    rcnt := BitVec.ofNat 5 r
    block := blockAfter c s.key blk r
    kchain := chainAfter c s.key r }

variable {c : Cfg} {s : State} {blk : Block} {short : Bool} {n r : Nat}

theorem roundCount_of_wellFormed (hw : c.wellFormed = true) : c.roundCount = 16 := by
  obtain ⟨-, -, -, -, -, -, -, hrounds, -⟩ := Cfg.wellFormed_iff.mp hw
  exact hrounds

theorem afterRounds_zero (hw : c.wellFormed = true) : afterRounds c blk short 0 s = start blk short s := by
  simp [afterRounds, roundCount_of_wellFormed hw, start, blockAfter, chainAfter]

theorem afterRounds_cst_run (hw : c.wellFormed = true) (hlt : r < 16) : (afterRounds c blk short r s).cst = .run := by
  have hrounds := roundCount_of_wellFormed hw
  exact if_neg (by omega)

theorem afterRounds_cst_out (hw : c.wellFormed = true) : (afterRounds c blk short 16 s).cst = .out :=
  if_pos (roundCount_of_wellFormed hw).symm

/-- After the last round BLOCK is the whole pass (45_controller.md R200). -/
theorem afterRounds_block_last (hw : c.wellFormed = true) :
    (afterRounds c blk short 16 s).block = encryptBlock c blk s.key := by
  rw [encryptBlock, roundCount_of_wellFormed hw]
  rfl

@[simp] theorem afterRounds_short (c : Cfg) (blk : Block) (short : Bool) (r : Nat) (s : State) :
    (afterRounds c blk short r s).short = short := rfl

@[simp] theorem afterRounds_emitted (c : Cfg) (blk : Block) (short : Bool) (r : Nat) (s : State) :
    (afterRounds c blk short r s).emitted = s.emitted := rfl

/-- A round step does round `r + 1` of the pass (45_controller.md R204): RCNT has not wrapped, so it is `r`. -/
theorem roundStep_afterRounds (hw : c.wellFormed = true) (hlt : r < 16) :
    roundStep c (clocked (afterRounds c blk short r s)) = afterRounds c blk short (r + 1) s := by
  have hrcnt : (BitVec.ofNat 5 r).toNat = r := by rw [BitVec.toNat_ofNat, Nat.mod_eq_of_lt (by omega)]
  have hcst := afterRounds_cst_run (blk := blk) (short := short) (s := s) hw hlt
  simp only [afterRounds, elapsed_cst] at hcst
  simp [roundStep, clocked, afterRounds, elapsed, hrcnt, hcst, blockAfter, chainAfter, roundKey, Nat.add_assoc]

/-- A started block goes through its rounds, one at each edge, while no reset is asserted. -/
theorem runEdges_start (hw : c.wellFormed = true) (r : Nat) (hle : r ≤ 16) (hr : NoReset r (start blk short s)) :
    runEdges c r (start blk short s) = .next (afterRounds c blk short r s) := by
  induction r with
  | zero => rw [afterRounds_zero hw, runEdges_zero]
  | succ r ih =>
    have hrun := ih (by omega) fun j hj => hr j (by omega)
    have hpins : pins (afterRounds c blk short r s) = pinsAt r (start blk short s) := pins_of_inputs_drop rfl
    have hrst : (pins (afterRounds c blk short r s)).rst = false := by rw [hpins]; exact hr r (by omega)
    refine runEdges_next hrun ?_
    rw [coreStep_run hrst (afterRounds_cst_run hw hle), roundStep_afterRounds hw hle]

/-- A started block goes through its 16 rounds, waits in OUT for `n` edges, and is delivered at the next one
(45_controller.md R204 to R206). -/
theorem runEdges_taken (hw : c.wellFormed = true) (h : TakenAfter n (start blk short s)) :
    runEdges c (17 + n) (start blk short s) = .next (deliver (elapsed (n + 1) (afterRounds c blk short 16 s))) := by
  obtain ⟨hr, hwait, hready⟩ := h
  have hrounds : runEdges c 16 (start blk short s) = .next (afterRounds c blk short 16 s) :=
    runEdges_start hw 16 le_rfl fun j hj => hr j (by omega)
  have hpins (j : Nat) : pinsAt j (afterRounds c blk short 16 s) = pinsAt (16 + j) (start blk short s) :=
    pinsAt_of_inputs_drop rfl j
  rw [show 17 + n = 16 + (n + 1) by omega, runEdges_add hrounds]
  refine runEdges_hold_deliver n (afterRounds_cst_out hw) (fun j hj => ?_) (fun j hj => ?_) ?_
  · rw [hpins]
    exact hr _ (by omega)
  · rw [hpins]
    exact hwait j hj
  · rw [hpins, hready]

/-- The pair delivered for a started block is its pass under the KEY of its start, with its short flag
(45_controller.md R207). -/
theorem emitted_deliver_afterRounds (hw : c.wellFormed = true) :
    (deliver (elapsed n (afterRounds c blk short 16 s))).emitted =
      s.emitted ++ [⟨encryptBlock c blk s.key, short⟩] := by
  simp [afterRounds_block_last hw]

end Pass

/-- Settles O57: each run delivers the pass of the block under the KEY of its start, and the two keys are equal. -/
theorem wordDependsOnBlockAndKeyAlone : Obligations.WordDependsOnBlockAndKeyAlone := by
  unfold Obligations.WordDependsOnBlockAndKeyAlone
  intro c blk short₁ short₂ s₁ s₂ n₁ n₂ hw hkey h₁ h₂
  refine ⟨_, _, encryptBlock c blk s₁.key, runEdges_taken hw h₁, runEdges_taken hw h₂,
    emitted_deliver_afterRounds hw, ?_⟩
  rw [hkey]
  exact emitted_deliver_afterRounds hw

end Sys2Proof.Machine
end

section
/-! PROOFS. The statements of 30_encoding.md: what the decoder answers of a word, that it and the encoder are inverse,
the rows of the opcode map, how many words are legal, and the pseudo-commands. -/

namespace Sys2Proof

section Fields

theorem opField_and (a b : Word) : opField (a &&& b) = opField a &&& opField b := BitVec.extractLsb'_and

theorem z4Field_and (a b : Word) : z4Field (a &&& b) = z4Field a &&& z4Field b := BitVec.extractLsb'_and

/-- The mask of format K keeps OP (30_encoding.md R95). -/
theorem opField_eq_of_maskK {cw m : Word} (h : cw &&& 0xF000#16 = m) : opField cw = opField m := by
  rw [← h, opField_and]
  exact BitVec.and_allOnes.symm

/-- The mask of format C keeps OP and Z4 (R95). -/
theorem opField_z4Field_eq_of_maskC {cw m : Word} (h : cw &&& 0xFF00#16 = m) :
    opField cw = opField m ∧ z4Field cw = z4Field m := by
  rw [← h, opField_and, z4Field_and]
  exact ⟨BitVec.and_allOnes.symm, BitVec.and_allOnes.symm⟩

/-- A word of format C is OP and Z4 in its high byte, and the character in its low byte. -/
theorem encode_putch (char : Char8) : encode (.putch char) = 0x20#8 ++ char :=
  (BitVec.append_assoc (x₁ := 0x2#4) (x₂ := 0#4) (x₃ := char)).symm

end Fields

section Decoding

variable {cw : Word}

/-- What the decoder answers of a word (30_encoding.md R96): the command it is the word of, or ILLEGAL by one of the
three cases of R97. -/
inductive DecodeCase (cw : Word) : Decoded → Prop where
  | command {i : Instr} (henc : encode i = cw) : DecodeCase cw (.command i)
  | unassignedOpcode (hop : 0x5 ≤ (opField cw).toNat) : DecodeCase cw (.illegal .unassignedOpcode)
  | nonzeroZ12 (hop : opField cw = 0x0#4 ∨ opField cw = 0x3#4 ∨ opField cw = 0x4#4) (harg : argField cw ≠ 0#12) :
      DecodeCase cw (.illegal .nonzeroZ12)
  | nonzeroZ4 (hop : opField cw = 0x2#4) (hz : z4Field cw ≠ 0#4) : DecodeCase cw (.illegal .nonzeroZ4)

/-- Every command is read back from its word. -/
theorem decode_encode (i : Instr) : decode (encode i) = .command i := by
  cases i <;> simp [encode, decode, decodeN, decodeC]

theorem DecodeCase.decode_eq {d : Decoded} (h : DecodeCase cw d) : decode cw = d := by
  cases h with
  | command henc => rw [← henc, decode_encode]
  | unassignedOpcode hop =>
    have hne (op : BitVec 4) (hlt : op.toNat < 0x5) : opField cw ≠ op := by rintro rfl; omega
    simp [decode, hne]
  | nonzeroZ12 hop harg => obtain h | h | h := hop <;> simp [decode, decodeN, h, harg]
  | nonzeroZ4 hop hz => simp [decode, decodeC, hop, hz]

theorem decodeN_case {i : Instr} (henc : encode i = wordN (opField cw))
    (hop : opField cw = 0x0#4 ∨ opField cw = 0x3#4 ∨ opField cw = 0x4#4) : DecodeCase cw (decodeN cw i) := by
  unfold decodeN
  split
  next harg => exact .command (by rw [henc, wordN, ← harg, opField_argField])
  next harg => exact .nonzeroZ12 hop harg

theorem decodeC_case (hop : opField cw = 0x2#4) : DecodeCase cw (decodeC cw) := by
  unfold decodeC
  split
  next hz => exact .command (by rw [encode, wordC, ← hop, ← hz, opField_z4Field_charField])
  next hz => exact .nonzeroZ4 hop hz

theorem decode_case (cw : Word) : DecodeCase cw (decode cw) := by
  unfold decode
  split_ifs with h0 h1 h2 h3 h4
  · exact decodeN_case (by rw [h0]; rfl) (.inl h0)
  · exact .command (by rw [encode, wordK, ← h1, opField_argField])
  · exact decodeC_case h2
  · exact decodeN_case (by rw [h3]; rfl) (.inr (.inl h3))
  · exact decodeN_case (by rw [h4]; rfl) (.inr (.inr h4))
  · exact .unassignedOpcode (by bv_omega)

/-- A word is in exactly one case, and the decoder answers it. -/
theorem decode_eq_iff {d : Decoded} : decode cw = d ↔ DecodeCase cw d := by
  refine ⟨fun h => ?_, DecodeCase.decode_eq⟩
  rw [← h]
  exact decode_case cw

/-- A legal word is the word of its command, and of no other. -/
theorem decode_eq_command_iff {i : Instr} : decode cw = .command i ↔ encode i = cw := by
  refine decode_eq_iff.trans ⟨fun h => ?_, .command⟩
  cases h with
  | command henc => exact henc

/-- A word is illegal exactly in the three cases of R97. -/
theorem exists_decode_eq_illegal_iff : (∃ why, decode cw = .illegal why) ↔
    (0x5 ≤ (opField cw).toNat ∨
      ((opField cw = 0x0#4 ∨ opField cw = 0x3#4 ∨ opField cw = 0x4#4) ∧ argField cw ≠ 0#12) ∨
      (opField cw = 0x2#4 ∧ z4Field cw ≠ 0#4)) := by
  simp only [decode_eq_iff]
  constructor
  · rintro ⟨why, h⟩
    cases h with
    | unassignedOpcode hop => exact .inl hop
    | nonzeroZ12 hop harg => exact .inr (.inl ⟨hop, harg⟩)
    | nonzeroZ4 hop hz => exact .inr (.inr ⟨hop, hz⟩)
  · rintro (hop | ⟨hop, harg⟩ | ⟨hop, hz⟩)
    · exact ⟨_, .unassignedOpcode hop⟩
    · exact ⟨_, .nonzeroZ12 hop harg⟩
    · exact ⟨_, .nonzeroZ4 hop hz⟩

/-- A 16-bit word is its own table word (log entry 15). -/
theorem decodeTableWord_toNat (cw : Word) : decodeTableWord 16 cw.toNat = (decode cw).toInstr? := by
  have hword : tableWord 16 cw.toNat = cw := by
    rw [tableWord, Nat.mod_eq_of_lt cw.isLt, BitVec.ofNat_toNat, BitVec.setWidth_eq]
  rw [decodeTableWord, if_pos le_rfl, hword]

end Decoding

/-- Settles O9: a word decodes to a command exactly when it is the command's word. -/
theorem decodeAndEncodeAgree : Obligations.DecodeAndEncodeAgree := by
  unfold Obligations.DecodeAndEncodeAgree
  refine ⟨decode_encode, fun cw i => decode_eq_command_iff.mp, fun i => ?_⟩
  rw [decodeTableWord_toNat, decode_encode, Decoded.toInstr?]

section Rows

variable {cw : Word}

/-- A row of format N fixes every bit of its word (30_encoding.md R95). -/
theorem masked_eq_iff_decode_of_full {i : Instr} (h : rowMask i = BitVec.allOnes 16) (hm : rowMatch i = encode i) :
    cw &&& rowMask i = rowMatch i ↔ decode cw = .command i := by
  rw [decode_eq_command_iff, h, hm, BitVec.and_allOnes, eq_comm]

/-- The row of SETKEY fixes OP, and the other bits are KEY12 (R95). -/
theorem masked_eq_iff_setkey : cw &&& 0xF000#16 = 0x1000#16 ↔ ∃ k, decode cw = .command (.setkey k) := by
  simp only [decode_eq_command_iff]
  constructor
  · intro h
    have hop : opField cw = 0x1#4 := opField_eq_of_maskK h
    exact ⟨argField cw, by rw [encode, wordK, ← hop, opField_argField]⟩
  · rintro ⟨k, rfl⟩
    exact Laws.EncodedInItsRow.setkey k

/-- The row of PUTCH fixes OP and Z4, and the other bits are CHAR8 (R95). -/
theorem masked_eq_iff_putch : cw &&& 0xFF00#16 = 0x2000#16 ↔ ∃ char, decode cw = .command (.putch char) := by
  simp only [decode_eq_command_iff]
  constructor
  · intro h
    obtain ⟨hop, hz⟩ : opField cw = 0x2#4 ∧ z4Field cw = 0#4 := opField_z4Field_eq_of_maskC h
    exact ⟨charField cw, by rw [encode, wordC, ← hop, ← hz, opField_z4Field_charField]⟩
  · rintro ⟨char, rfl⟩
    exact Laws.EncodedInItsRow.putch char

end Rows

/-- Settles O7: each row's word and mask fix its opcode and reserved bits, and the command's word carries the rest. -/
theorem wordIsItsRowExactly : Obligations.WordIsItsRowExactly := by
  unfold Obligations.WordIsItsRowExactly
  refine ⟨fun cw => masked_eq_iff_decode_of_full (i := .nop) rfl rfl, fun cw => masked_eq_iff_setkey,
    fun cw => masked_eq_iff_putch, fun cw => masked_eq_iff_decode_of_full (i := .flush) rfl rfl,
    fun cw => masked_eq_iff_decode_of_full (i := .clrerr) rfl rfl, fun cw k h => ?_, fun cw char h => ?_,
    fun cw hop => DecodeCase.decode_eq (.unassignedOpcode hop)⟩
  · rw [← decode_eq_command_iff.mp h]
    exact (argField_wordK 0x1#4 k).symm
  · rw [← decode_eq_command_iff.mp h]
    exact (charField_wordC 0x2#4 char).symm

section Counting

/-- The commands: three without an operand, one for each key and one for each character. -/
def instrEquiv : Instr ≃ Fin 3 ⊕ Key ⊕ Char8 where
  toFun
    | .nop => .inl 0
    | .flush => .inl 1
    | .clrerr => .inl 2
    | .setkey k => .inr (.inl k)
    | .putch char => .inr (.inr char)
  invFun
    | .inl 0 => .nop
    | .inl 1 => .flush
    | .inl 2 => .clrerr
    | .inr (.inl k) => .setkey k
    | .inr (.inr char) => .putch char
  left_inv i := by cases i <;> rfl
  right_inv
    | .inl 0 | .inl 1 | .inl 2 | .inr (.inl _) | .inr (.inr _) => rfl

theorem card_bitVec (w : Nat) : Nat.card (BitVec w) = 2 ^ w := by
  rw [Nat.card_congr BitVec.equivFin.toEquiv, Nat.card_fin]

theorem card_instr : Nat.card Instr = 4355 := by
  rw [Nat.card_congr instrEquiv, Nat.card_sum, Nat.card_sum, Nat.card_fin, card_bitVec, card_bitVec]
  rfl

theorem encode_injective : Function.Injective encode := fun i j h => by
  simpa [decode_encode] using congrArg decode h

/-- The legal words are the words of the commands, each of one command. -/
theorem ncard_legal : Set.ncard { cw : Word | ∃ i, decode cw = .command i } = 4355 := by
  have hrange : { cw : Word | ∃ i, decode cw = .command i } = Set.range encode := by
    ext cw
    simp [decode_eq_command_iff]
  rw [hrange, Set.ncard_range_of_injective encode_injective, card_instr]

/-- The illegal words are all the others. -/
theorem ncard_illegal : Set.ncard { cw : Word | ∃ why, decode cw = .illegal why } = 61181 := by
  have hcompl : { cw : Word | ∃ why, decode cw = .illegal why } = { cw | ∃ i, decode cw = .command i }ᶜ := by
    ext cw
    cases h : decode cw <;> simp [h]
  have hsum := Set.ncard_add_ncard_compl { cw : Word | ∃ i, decode cw = .command i }
  rw [ncard_legal, card_bitVec] at hsum
  rw [hcompl]
  omega

end Counting

/-- Settles O8: the cases are those of the decoder, and every word that is no command's word is illegal. -/
theorem illegalWordsAreExactlyTheThreeCases : Obligations.IllegalWordsAreExactlyTheThreeCases :=
  ⟨fun _ => exists_decode_eq_illegal_iff, fun _ _ s h => Machine.execWord_illegal h s, ncard_legal, ncard_illegal⟩

/-- Settles O10: each word is closed, so the decoder computes its answer. -/
theorem boundaryWordsDecodeAsListed : Obligations.BoundaryWordsDecodeAsListed := by
  unfold Obligations.BoundaryWordsDecodeAsListed
  decide

namespace Machine

section PseudoCommands

theorem expand_block_words (w : Word) :
    (Pseudo.block w).expand.map encode = [0x20#8 ++ leftHalf w, 0x20#8 ++ rightHalf w] := by
  simp [Pseudo.expand, encode_putch]

theorem expand_text_words (chars : List Char8) :
    (Pseudo.text chars).expand.map encode = (chars.map fun char => (0x20#8 ++ char : Word)) ++ [0x3000#16] := by
  have hflush : encode .flush = 0x3000#16 := rfl
  simp [Pseudo.expand, encode_putch, hflush]

/-- With no character pending, two PUTCH start the block of the pair (46_commands.md R232). -/
theorem exec_putch_putch {s : State} (h : s.half = false) (c0 c1 : Char8) :
    exec (.putch c0) s = .next (holdChar c0 s) ∧
      exec (.putch c1) (holdChar c0 s) = .next (start (pairBlock c0 c1) false (holdChar c0 s)) :=
  ⟨execPutch_first c0 h, execPutch_second c1 rfl⟩

end PseudoCommands

/-- Settles O11: the first PUTCH of BLOCK is the first or the second of its pair by the flag HALF before it. -/
theorem pseudoCommandsExpandToTheirWords : Obligations.PseudoCommandsExpandToTheirWords := by
  unfold Obligations.PseudoCommandsExpandToTheirWords
  refine ⟨expand_block_words, expand_text_words, fun k => rfl, fun w s h => ?_, fun w s h => ?_⟩
  · obtain ⟨hfirst, hsecond⟩ := exec_putch_putch h (leftHalf w) (rightHalf w)
    exact ⟨_, _, hfirst, hsecond, rfl, parts_append (m := 8) (n := 8) w⟩
  · exact ⟨_, execPutch_second (leftHalf w) h, rfl, rfl⟩

end Machine

end Sys2Proof
end

section
/-! PROOFS. The statements of 40_bit_encoder.md: characters and their bits, the chunks a bit sequence is cut into, and
the blocks the hardware forms from a text. -/

namespace Sys2Proof.Machine

section Sequences

@[simp] theorem length_toSeq {w : Nat} (v : BitVec w) : (toSeq v).length = w := by simp [toSeq]

/-- The value of the sequence a value holds is the value (00_scope.md R6). -/
theorem ofSeq_toSeq {w : Nat} (v : BitVec w) : ofSeq w (toSeq v) = v := by
  apply BitVec.eq_of_getMsbD_eq
  intro i hi
  rw [ofSeq_getMsbD (length_toSeq v)]
  simp [toSeq, seqElem, hi]

/-- The sequence of a concatenation is the left part's elements, then the right part's. -/
theorem toSeq_append {m n : Nat} (a : BitVec m) (b : BitVec n) : toSeq (a ++ b) = toSeq a ++ toSeq b := by
  rw [toSeq, List.range_add, List.map_append, List.map_map]
  congr 1
  · exact List.map_congr_left fun i hi => by simp [seqElem, List.mem_range.mp hi]
  · exact List.map_congr_left fun i _ => by simp [seqElem]

/-- Every value of a list puts as many elements as it has bits into the joined sequence. -/
theorem length_flatMap_toSeq {w : Nat} (vs : List (BitVec w)) : (vs.flatMap toSeq).length = w * vs.length := by
  simp [List.length_flatMap, Nat.mul_comm]

end Sequences

section Characters

variable {n : Nat} {char : Char8}

/-- A number has its own value at a width it fits in. -/
theorem toNat_toBinary {width : Nat} (hn : n < 2 ^ width) : (toBinary n width).toNat = n := by
  rw [toBinary, BitVec.toNat_ofNat, Nat.mod_eq_of_lt hn]

/-- The character of a code point is the one of its value (R110). -/
theorem encodeChar_eq_some_iff : encodeChar n = some char ↔ char.toNat = n := by
  constructor
  · intro h
    obtain ⟨hn, rfl⟩ : n ≤ 255 ∧ toBinary n 8 = char := by simpa [encodeChar, charInRange] using h
    exact toNat_toBinary (by omega)
  · rintro rfl
    have hle : char.toNat ≤ 255 := by omega
    simp [encodeChar, charInRange, hle, toBinary]

/-- The code points refused are those above 255 (R116). -/
theorem encodeChar_eq_none_iff : encodeChar n = none ↔ 255 < n := by simp [encodeChar, charInRange]

theorem encodeText_cons_eq_none_iff {ns : List Nat} :
    encodeText (n :: ns) = none ↔ encodeChar n = none ∨ encodeText ns = none := by
  cases hn : encodeChar n <;> cases hns : encodeText ns <;> simp [encodeText, hn, hns]

theorem encodeText_eq_none_iff (ns : List Nat) : encodeText ns = none ↔ ∃ n ∈ ns, 255 < n := by
  induction ns with
  | nil => simp [encodeText]
  | cons n ns ih => simp [encodeText_cons_eq_none_iff, encodeChar_eq_none_iff, ih]

/-- Element `i` of a character is bit `7 - i` of its code point. -/
theorem seqElem_eq_testBit (char : Char8) {i : Nat} (hi : i < 8) : seqElem char i = char.toNat.testBit (7 - i) := by
  simp [seqElem, BitVec.getMsbD, hi, BitVec.testBit_toNat]

/-- The word of a PUTCH is 0x2000 and its character's code point. -/
theorem encode_putch_eq_ofNat (char : Char8) : encode (.putch char) = BitVec.ofNat 16 (0x2000 + char.toNat) := by
  rw [encode_putch]
  apply BitVec.eq_of_toNat_eq
  rw [BitVec.toNat_append, ← Nat.shiftLeft_add_eq_or_of_lt char.isLt]
  exact (toNat_toBinary (by omega)).symm

theorem encodeBits_append (a b : List Char8) : encodeBits (a ++ b) = encodeBits a ++ encodeBits b :=
  List.flatMap_append

theorem encodeBits_singleton (char : Char8) : encodeBits [char] = toSeq char := List.flatMap_singleton _ _

@[simp] theorem length_encodeBits (text : List Char8) : (encodeBits text).length = 8 * text.length :=
  length_flatMap_toSeq text

end Characters

/-- Settles O40: the character of a code point is the one of its value. -/
theorem charactersAreEightBitsMsbFirst : Obligations.CharactersAreEightBitsMsbFirst := by
  unfold Obligations.CharactersAreEightBitsMsbFirst
  refine ⟨fun n hn => ?_, fun n => encodeChar_eq_none_iff.mpr, fun n char h => ?_, encodeText_eq_none_iff,
    encodeBits_append, encodeBits_singleton, length_encodeBits, rfl⟩
  · have hval : (toBinary n 8).toNat = n := toNat_toBinary (by omega)
    refine ⟨toBinary n 8, encodeChar_eq_some_iff.mpr hval, hval, fun i hi => ?_⟩
    rw [seqElem_eq_testBit _ hi, hval]
  · rw [decode_eq_command_iff, encode_putch_eq_ofNat, encodeChar_eq_some_iff.mp h]

section Segments

variable {bits chunk : List Bool}

@[simp] theorem length_segmentBits (bits : List Bool) : (segmentBits bits).length = (bits.length + 15) / 16 := by
  simp [segmentBits, chunkCount]

theorem length_getElem_segmentBits {k : Nat} (h : k < (segmentBits bits).length) :
    (segmentBits bits)[k].length = min 16 (bits.length - 16 * k) := by
  simp [segmentBits]

/-- The first `n` chunks joined are the first `16 n` bits. -/
theorem flatten_chunks (bits : List Bool) (n : Nat) :
    ((List.range n).map fun k => (bits.drop (16 * k)).take 16).flatten = bits.take (16 * n) := by
  induction n with
  | zero => simp
  | succ n ih => simp [List.range_succ, ih, Nat.mul_succ, List.take_add]

theorem flatten_segmentBits (bits : List Bool) : (segmentBits bits).flatten = bits := by
  rw [segmentBits, flatten_chunks, List.take_of_length_le]
  rw [chunkCount]
  omega

/-- A short chunk holds what is left of the bits when whole chunks are cut off (R112). -/
theorem length_of_mem_segmentBits (hmem : chunk ∈ segmentBits bits) (hshort : chunk.length < 16) :
    0 < chunk.length ∧ chunk.length = bits.length % 16 := by
  obtain ⟨k, hk, rfl⟩ := List.getElem_of_mem hmem
  rw [length_getElem_segmentBits] at hshort ⊢
  rw [length_segmentBits] at hk
  omega

/-- When the number of bits is no multiple of 16, what is left of them is the last chunk (R112). -/
theorem length_getLast_segmentBits (hb : bits.length % 16 ≠ 0) (hlast : (segmentBits bits).getLast? = some chunk) :
    chunk.length = bits.length % 16 := by
  rw [List.getLast?_eq_getElem?, List.getElem?_eq_some_iff] at hlast
  obtain ⟨hk, rfl⟩ := hlast
  rw [length_getElem_segmentBits, length_segmentBits]
  omega

theorem exists_short_chunk_iff : (∃ chunk ∈ segmentBits bits, chunk.length < 16) ↔ bits.length % 16 ≠ 0 := by
  constructor
  · rintro ⟨chunk, hmem, hshort⟩
    have h := length_of_mem_segmentBits hmem hshort
    omega
  · intro hb
    have hne : segmentBits bits ≠ [] := by
      rw [← List.length_pos_iff, length_segmentBits]
      omega
    have h := length_getLast_segmentBits hb (List.getLast?_eq_some_getLast hne)
    exact ⟨_, List.getLast_mem hne, by omega⟩

/-- A first chunk of 16 bits is cut off, and the rest is segmented by itself. -/
theorem segmentBits_append (hchunk : chunk.length = 16) (rest : List Bool) :
    segmentBits (chunk ++ rest) = chunk :: segmentBits rest := by
  have hcount : chunkCount (chunk ++ rest).length = chunkCount rest.length + 1 := by
    rw [List.length_append, chunkCount, chunkCount]
    omega
  have hdrop (k : Nat) : (chunk ++ rest).drop (16 * (k + 1)) = rest.drop (16 * k) := by
    rw [Nat.mul_succ, Nat.add_comm, ← List.drop_drop, List.drop_left' hchunk]
  rw [segmentBits, hcount, List.range_succ_eq_map, List.map_cons, List.map_map]
  simp [segmentBits, hdrop, List.take_left' hchunk, Function.comp_def]

/-- Bits that fit into one chunk are that chunk. -/
theorem segmentBits_of_length_le (hpos : 0 < bits.length) (hle : bits.length ≤ 16) : segmentBits bits = [bits] := by
  have hcount : chunkCount bits.length = 1 := by
    rw [chunkCount]
    omega
  simp [segmentBits, hcount, List.take_of_length_le hle]

end Segments

/-- Settles O41: a short chunk has what is left of the bits, and of eight bits a character eight or none are left. -/
theorem segmentCutsConsecutiveChunks : Obligations.SegmentCutsConsecutiveChunks := by
  unfold Obligations.SegmentCutsConsecutiveChunks
  refine ⟨fun bits => ⟨flatten_segmentBits bits, length_segmentBits bits⟩,
    fun bits k h => length_getElem_segmentBits h, fun bits last => length_getLast_segmentBits,
    fun text => ?_, fun text chunk hmem hshort => ?_⟩
  · rw [exists_short_chunk_iff, length_encodeBits]
    omega
  · have h := length_of_mem_segmentBits hmem hshort
    rw [length_encodeBits] at h
    omega

section Blocks

/-- A pair of characters fills a chunk (R113). -/
theorem chunkBlock_pair (c0 c1 : Char8) : chunkBlock (toSeq c0 ++ toSeq c1) = (pairBlock c0 c1, false) := by
  rw [← toSeq_append]
  simp [chunkBlock, ofSeq_toSeq, pairBlock]

/-- A single character is filled with the eight bits of 0x00 (R114). -/
theorem chunkBlock_single (c0 : Char8) : chunkBlock (toSeq c0) = (shortBlock c0, true) := by
  have hzeros : List.replicate 8 false = toSeq 0x00#8 := rfl
  simp [chunkBlock, hzeros, ← toSeq_append, ofSeq_toSeq, shortBlock]

theorem textBlocks_pair (c0 c1 : Char8) (cs : List Char8) :
    textBlocks (c0 :: c1 :: cs) = (pairBlock c0 c1, false) :: textBlocks cs := by
  have hbits : encodeBits (c0 :: c1 :: cs) = (toSeq c0 ++ toSeq c1) ++ encodeBits cs := by simp [encodeBits]
  rw [textBlocks, hbits, segmentBits_append (by simp), List.map_cons, chunkBlock_pair, textBlocks]

theorem textBlocks_single (c0 : Char8) : textBlocks [c0] = [(shortBlock c0, true)] := by
  rw [textBlocks, encodeBits_singleton, segmentBits_of_length_le (by simp) (by simp), List.map_singleton,
    chunkBlock_single]

/-- The hardware's pairs are the source's segments (R113 to R115). -/
theorem textBlocks_eq_formedBlocks (text : List Char8) : textBlocks text = formedBlocks text := by
  induction text using formedBlocks.induct with
  | case1 => rfl
  | case2 c0 => rw [textBlocks_single, formedBlocks]
  | case3 c0 c1 cs ih => rw [textBlocks_pair, formedBlocks, ih]

@[simp] theorem length_textBlocks (text : List Char8) : (textBlocks text).length = (text.length + 1) / 2 := by
  rw [textBlocks, List.length_map, length_segmentBits, length_encodeBits]
  omega

theorem length_outputBits_encryptText (c : Cfg) (text : List Char8) (k : Key) :
    (outputBits ((encryptText c text k).map Prod.fst)).length = 16 * ((text.length + 1) / 2) := by
  rw [outputBits, length_flatMap_toSeq, encryptText, List.length_map, List.length_map, length_textBlocks]

/-- The blocks before the last are two characters each, so only the last can be short (R113, R114). -/
theorem textBlocks_short_iff {text : List Char8} {k : Nat} (h : k < (textBlocks text).length) :
    (textBlocks text)[k].2 = true ↔ text.length % 2 = 1 ∧ k + 1 = (textBlocks text).length := by
  have hflag : (textBlocks text)[k].2 = decide (min 16 (8 * text.length - 16 * k) < 16) := by
    simp [textBlocks, chunkBlock, length_getElem_segmentBits]
  rw [length_textBlocks] at h ⊢
  rw [hflag, decide_eq_true_iff]
  omega

end Blocks

/-- Settles O42: the hardware's pairs are the source's segments, of which the last alone can be short. -/
theorem formedBlocksAreTheSegmentedText : Obligations.FormedBlocksAreTheSegmentedText := by
  unfold Obligations.FormedBlocksAreTheSegmentedText
  refine ⟨textBlocks_eq_formedBlocks, fun text => ?_, length_outputBits_encryptText, fun text k h => ?_⟩
  · rw [← textBlocks_eq_formedBlocks, length_textBlocks]
  · simp only [← textBlocks_eq_formedBlocks] at h ⊢
    exact textBlocks_short_iff h

end Sys2Proof.Machine
end

section
/-! PROOFS. The statements of 41_bitops.md: padding and integers, the linearity of every table selection, selections by
a permutation of the positions, and the wiring of this hardware's three tables. -/

namespace Sys2Proof.Machine

section Values

/-- A sequence that fits into a width has one value at every such width. -/
theorem toNat_ofSeq {n : Nat} {bits : List Bool} (h : bits.length ≤ n) :
    (ofSeq n bits).toNat = (BitVec.ofBoolListBE bits).toNat := by
  rw [ofSeq, BitVec.toNat_setWidth_of_le h]

/-- Zeros on the left leave the value of a numeral (R123). -/
theorem toNat_replicate_false_append (k : Nat) (numeral : List Bool) :
    (BitVec.ofBoolListBE (List.replicate k false ++ numeral)).toNat = (BitVec.ofBoolListBE numeral).toNat := by
  induction k with
  | zero => rfl
  | succ k ih => simpa [List.replicate_succ, BitVec.ofBoolListBE] using ih

variable {numeral : List Bool} {width : Nat}

theorem length_padBinary (h : numeral.length ≤ width) : (padBinary numeral width).length = width := by
  rw [padBinary, List.length_append, List.length_replicate, Nat.sub_add_cancel h]

theorem padBinary_length_self (numeral : List Bool) : padBinary numeral numeral.length = numeral := by
  simp [padBinary]

theorem toNat_ofSeq_padBinary (h : numeral.length ≤ width) :
    (ofSeq width (padBinary numeral width)).toNat = (ofSeq numeral.length numeral).toNat := by
  rw [toNat_ofSeq (length_padBinary h).le, toNat_ofSeq le_rfl, padBinary, toNat_replicate_false_append]

/-- The linear ROM address (20_memory.md R74): the row stands above the four bits of the column. -/
theorem toNat_romAddress (row : BitVec 2) (col : BitVec 4) :
    (romAddress row col).toNat = 16 * row.toNat + col.toNat := by
  rw [romAddress, BitVec.toNat_append, ← Nat.shiftLeft_add_eq_or_of_lt col.isLt, Nat.shiftLeft_eq, Nat.mul_comm]

end Values

/-- Settles O25: exclusive-or is taken element by element, and zeros on the left of a numeral leave its value. -/
theorem xorAndPaddingWorkOnElements : Obligations.XorAndPaddingWorkOnElements := by
  unfold Obligations.XorAndPaddingWorkOnElements
  refine ⟨fun w a b i => ?_, fun w a b => ⟨BitVec.xor_self, BitVec.xor_zero, BitVec.xor_comm a b⟩,
    fun numeral width h => ⟨length_padBinary h, padBinary_length_self numeral, toNat_ofSeq_padBinary h⟩,
    fun n width h => toNat_toBinary h, toNat_romAddress, rfl, rfl⟩
  simp [xorBits, seqElem]

section Linearity

@[simp] theorem posElem_xor {w : Nat} (a b : BitVec w) (t : Nat) :
    posElem (a ^^^ b) t = (posElem a t ^^ posElem b t) := by
  simp [posElem, seqElem]

/-- Bit `i` of a selection for a table of any length: the element named by the entry `i` places from the last one, and
0 where the table has no such entry. -/
theorem tableSelect_getLsbD {w : Nat} (n : Nat) (table : List Nat) (x : BitVec w) (i : Nat) :
    (tableSelect n table x).getLsbD i = (decide (i < n) && table.reverse[i]?.any (posElem x)) := by
  rw [tableSelect, ofSeq, BitVec.getLsbD_setWidth, BitVec.getLsbD_ofBoolListBE]
  by_cases hi : i < table.length
  · have hlt : table.length - 1 - i < table.length := by omega
    simp [hi, hlt]
  · simp [hi]

/-- A selection takes each output element from one input element, so it is linear over exclusive-or (R128). -/
theorem tableSelect_xor {w : Nat} (n : Nat) (table : List Nat) (a b : BitVec w) :
    tableSelect n table (a ^^^ b) = tableSelect n table a ^^^ tableSelect n table b := by
  apply BitVec.eq_of_getLsbD_eq
  intro i hi
  rw [BitVec.getLsbD_xor]
  simp only [tableSelect_getLsbD, hi, decide_true, Bool.true_and]
  cases table.reverse[i]? with
  | none => rfl
  | some t => exact posElem_xor a b t

theorem tableSelect_zero (w n : Nat) (table : List Nat) : tableSelect n table (0#w) = 0#n := by
  have h := tableSelect_xor n table (0#w) (0#w)
  rwa [BitVec.xor_self, BitVec.xor_self] at h

end Linearity

/-- Settles O26: EXPAND, PERM8 and KSEL are table selections, and every table selection is linear. -/
theorem tableSelectionsAreLinear : Obligations.TableSelectionsAreLinear :=
  ⟨fun _ => tableSelect_xor, tableSelect_zero, fun c =>
    ⟨tableSelect_xor 12 c.eTable, tableSelect_xor 8 c.pTable, tableSelect_xor 12 c.kTable⟩⟩

section Permutations

variable {w n : Nat} {table : List Nat}

/-- The sequence of a selection (R120). -/
theorem toSeq_tableSelect (h : table.length = n) (x : BitVec w) :
    toSeq (tableSelect n table x) = table.map (posElem x) := by
  apply List.ext_getElem (by simpa using h.symm)
  intro i hi hi'
  have hlt : i < table.length := by simpa using hi'
  simpa [toSeq, seqElem] using tableSelect_getMsbD x h i hlt

/-- A value's sequence is its elements at all positions in order. -/
theorem toSeq_eq_map_posElem (x : BitVec w) : toSeq x = (List.range' 1 w).map (posElem x) := by
  rw [← toSeq_tableSelect (n := w) (by simp), tableSelect_identity]

theorem toSeq_injective : Function.Injective (toSeq (w := w)) := Function.LeftInverse.injective ofSeq_toSeq

/-- A table that lists every position once reorders the elements of a value (R121). -/
theorem toSeq_tableSelect_perm (h : table.Perm (List.range' 1 w)) (x : BitVec w) :
    (toSeq (tableSelect w table x)).Perm (toSeq x) := by
  rw [toSeq_tableSelect (by simpa using h.length_eq), toSeq_eq_map_posElem]
  exact h.map _

/-- Such a table reads every element, so the selection determines the value: it is injective on the finitely many values
of its width. -/
theorem tableSelect_bijective (h : table.Perm (List.range' 1 w)) :
    Function.Bijective (tableSelect (w := w) w table) := by
  refine Finite.injective_iff_bijective.mp fun a b hab => toSeq_injective ?_
  have hlen : table.length = w := by simpa using h.length_eq
  have hmap : table.map (posElem a) = table.map (posElem b) := by
    rw [← toSeq_tableSelect hlen, ← toSeq_tableSelect hlen, hab]
  rw [toSeq_eq_map_posElem, toSeq_eq_map_posElem, List.map_inj_left]
  exact fun t ht => List.map_inj_left.mp hmap t (h.mem_iff.mpr ht)

end Permutations

section Wiring

variable {w m n : Nat} {table : List Nat}

/-- A table cut in two selects the two parts of the output. -/
theorem tableSelect_append {first : List Nat} (hfirst : first.length = m) (htable : table.length = n)
    (x : BitVec w) : tableSelect (m + n) (first ++ table) x = tableSelect m first x ++ tableSelect n table x := by
  apply toSeq_injective
  rw [toSeq_append, toSeq_tableSelect hfirst, toSeq_tableSelect htable, toSeq_tableSelect (by simp [hfirst, htable]),
    List.map_append]

/-- A run of positions is a slice of the input: position `p` is bit `w - p` (00_scope.md R8). -/
theorem tableSelect_range' {p k : Nat} (h : 1 ≤ p ∧ p + k ≤ w + 1) (x : BitVec w) :
    tableSelect k (List.range' p k) x = x.extractLsb' (w + 1 - (p + k)) k := by
  refine BitVec.eq_of_getMsbD_eq fun i hi => ?_
  rw [tableSelect_getMsbD x (by simp) i (by simpa using hi), BitVec.getMsbD_extractLsb']
  have hle : w + 1 - (p + k) + k - i ≤ w := by omega
  have helem : p + 1 * i - 1 = w - (w + 1 - (p + k) + k - i) := by omega
  simp [posElem, seqElem, hi, hle, ← helem]

/-- A table that begins with a run of positions is wired to that slice, then as the rest of the table is. -/
theorem tableSelect_run (p k : Nat) {x : BitVec w} {y : BitVec n} (h : 1 ≤ p ∧ p + k ≤ w + 1)
    (htable : table.length = n) (hy : tableSelect n table x = y) :
    tableSelect (k + n) (List.range' p k ++ table) x = x.extractLsb' (w + 1 - (p + k)) k ++ y := by
  rw [tableSelect_append (by simp) htable, tableSelect_range' h, hy]

/-- A table is wired entry by entry. -/
theorem tableSelect_cons {t : Nat} {x : BitVec w} {y : BitVec n} (h : 1 ≤ t ∧ t ≤ w) (htable : table.length = n)
    (hy : tableSelect n table x = y) : tableSelect (1 + n) (t :: table) x = x.extractLsb' (w - t) 1 ++ y := by
  have hrun := tableSelect_run t 1 (by omega) htable hy
  rwa [Nat.add_sub_add_right] at hrun

end Wiring

/-- Settles O28: the table's entries one by one, and the table lists every position once. -/
theorem perm8IsWiredAsListed : Obligations.Perm8IsWiredAsListed := by
  unfold Obligations.Perm8IsWiredAsListed
  obtain ⟨-, -, -, -, -, -, -, hperm, -, -⟩ := tablesHaveTheirListedFacts
  refine ⟨fun s => ?_, tableSelect_bijective hperm, fun s => (toSeq_tableSelect_perm hperm s).count_eq true,
    rfl, rfl, rfl⟩
  iterate 7 refine tableSelect_cons (by decide) rfl ?_
  exact tableSelect_range' (p := 1) (by decide) s

/-- Settles O29: the table's entries one by one, and the table lists every position once. -/
theorem kselIsWiredAsListed : Obligations.KselIsWiredAsListed := by
  unfold Obligations.KselIsWiredAsListed
  obtain ⟨-, -, -, -, -, -, -, -, hperm, -⟩ := tablesHaveTheirListedFacts
  refine ⟨fun n => ?_, tableSelect_bijective hperm, rfl, rfl, rfl⟩
  iterate 11 refine tableSelect_cons (by decide) rfl ?_
  exact tableSelect_range' (p := 11) (by decide) n

/-- Settles O27: the table is the runs 8, 1 to 5, 4 to 5, 6 to 8 and 1, each wired to a slice. -/
theorem expandIsWiredAsListed : Obligations.ExpandIsWiredAsListed := by
  unfold Obligations.ExpandIsWiredAsListed
  refine ⟨fun r => ?_, rfl, rfl, rfl⟩
  refine tableSelect_run 8 1 (by decide) rfl ?_
  refine tableSelect_run 1 5 (by decide) rfl ?_
  refine tableSelect_run 4 2 (by decide) rfl ?_
  refine tableSelect_run 6 3 (by decide) rfl ?_
  exact tableSelect_range' (p := 1) (by decide) r

end Sys2Proof.Machine
end

section
/-! PROOFS. The statements of 42_substitution.md: the address a vector names, the two lanes of the substitution, and
the entries a lookup returns. -/

namespace Sys2Proof.Machine

section Slices

variable {w : Nat}

/-- A slice of one bit is that bit. -/
theorem toNat_extractLsb'_one (x : BitVec w) (i : Nat) : (x.extractLsb' i 1).toNat = (x.getLsbD i).toNat := by
  rw [BitVec.extractLsb'_toNat, BitVec.getLsbD, Nat.toNat_testBit, Nat.shiftRight_eq_div_pow, pow_one]

/-- A bit to the right of a value is its units. -/
theorem toNat_append_bit {n : Nat} (a : BitVec n) (x : BitVec w) (i : Nat) :
    (a ++ x.extractLsb' i 1).toNat = 2 * a.toNat + (x.getLsbD i).toNat := by
  rw [BitVec.toNat_append, ← Nat.shiftLeft_add_eq_or_of_lt (BitVec.isLt _), Nat.shiftLeft_eq, Nat.mul_comm, pow_one,
    toNat_extractLsb'_one]

/-- The lowest bit of a slice is its units. -/
theorem toNat_extractLsb'_succ (x : BitVec w) (i n : Nat) :
    (x.extractLsb' i (n + 1)).toNat = 2 * (x.extractLsb' (i + 1) n).toNat + (x.getLsbD i).toNat := by
  rw [← BitVec.extractLsb'_append_extractLsb'_eq_extractLsb' rfl, toNat_append_bit]

end Slices

section Address

/-- The row of a vector (42_substitution.md R141): twice its first bit and its last. -/
theorem toNat_sboxRow (v : SboxIn) : (sboxRow v).toNat = 2 * (v.getLsbD 5).toNat + (v.getLsbD 0).toNat := by
  rw [sboxRow, toNat_append_bit, toNat_extractLsb'_one]

/-- The column of a vector (R141): its four inner bits, the left one most significant. -/
theorem toNat_sboxCol (v : SboxIn) : (sboxCol v).toNat =
    8 * (v.getLsbD 4).toNat + 4 * (v.getLsbD 3).toNat + 2 * (v.getLsbD 2).toNat + (v.getLsbD 1).toNat := by
  rw [sboxCol, toNat_extractLsb'_succ, toNat_extractLsb'_succ, toNat_extractLsb'_succ, toNat_extractLsb'_one]
  simp only [Nat.reduceAdd]
  omega

/-- A vector is its column between the two bits of its row. -/
theorem sboxRow_sboxCol_append (v : SboxIn) :
    (sboxRow v).extractLsb' 1 1 ++ (sboxCol v ++ (sboxRow v).extractLsb' 0 1) = v := by
  have hinner : sboxCol v ++ v.extractLsb' 0 1 = v.extractLsb' 0 5 :=
    BitVec.extractLsb'_append_extractLsb'_eq_extractLsb' rfl
  rw [sboxRow, extract_high, extract_low, hinner]
  exact parts_append (m := 1) (n := 5) v

theorem eq_of_sboxRow_eq_of_sboxCol_eq {u v : SboxIn} (hrow : sboxRow u = sboxRow v) (hcol : sboxCol u = sboxCol v) :
    u = v := by
  rw [← sboxRow_sboxCol_append u, hrow, hcol, sboxRow_sboxCol_append]

end Address

section Lanes

@[simp] theorem outputA_substitute (c : Cfg) (m : Expanded) :
    outputA (substitute c m) = substituteOne c.sboxA (vectorA m) := outputA_append _ _

@[simp] theorem outputB_substitute (c : Cfg) (m : Expanded) :
    outputB (substitute c m) = substituteOne c.sboxB (vectorB m) := outputB_append _ _

end Lanes

/-- An entry of at most 15 is read whole (20_memory.md R74). -/
theorem toNat_sboxRead {box : BitVec 2 → BitVec 4 → Nat} {row : BitVec 2} {col : BitVec 4} (h : box row col ≤ 15) :
    (sboxRead box row col).toNat = box row col :=
  toNat_toBinary (Nat.lt_succ_of_le h)

/-- Settles O32: the last check of a well-formed record bounds every entry by 15. -/
theorem wellFormedLookupsFitFourBits : Obligations.WellFormedLookupsFitFourBits := by
  unfold Obligations.WellFormedLookupsFitFourBits
  intro c row col hwf
  obtain ⟨-, -, -, -, -, -, -, -, hentries⟩ := Cfg.wellFormed_iff.mp hwf
  obtain ⟨hA, hB⟩ := hentries row col
  exact ⟨toNat_sboxRead hA, toNat_sboxRead hB⟩

/-- Settles O30: the row and the column hold all six bits of the vector, each once. -/
theorem sboxIsAddressedByOuterAndInnerBits : Obligations.SboxIsAddressedByOuterAndInnerBits :=
  ⟨fun _ _ => rfl, fun v => ⟨toNat_sboxRow v, toNat_sboxCol v⟩, fun _ _ => eq_of_sboxRow_eq_of_sboxCol_eq, rfl, rfl⟩

/-- Settles O31: each part of the result is a function of its own vector alone. -/
theorem substitutionLanesDoNotInteract : Obligations.SubstitutionLanesDoNotInteract := by
  unfold Obligations.SubstitutionLanesDoNotInteract
  refine ⟨fun c m => ⟨outputA_substitute c m, outputB_substitute c m⟩, fun c m n h => ?_, fun c m n h => ?_⟩
  · have hA : vectorA m = vectorA n := h
    show outputA (substitute c m) = outputA (substitute c n)
    rw [outputA_substitute, outputA_substitute, hA]
  · have hB : vectorB m = vectorB n := h
    show outputB (substitute c m) = outputB (substitute c n)
    rw [outputB_substitute, outputB_substitute, hB]

end Sys2Proof.Machine
end

section
/-! PROOFS. The statements of 43_key_schedule.md: how a half and a key-chain state rotate, the round's amount and
advance, and the closed form of the schedule. -/

namespace Sys2Proof.Machine

section HalfRotation

/-- A rotation moves the first `a` elements behind the other `k`. -/
theorem rotateLeft_eq_append {k a : Nat} (x : BitVec (k + a)) :
    x.rotateLeft a = x.extractLsb' 0 k ++ x.extractLsb' k a := by
  refine BitVec.eq_of_getMsbD_eq fun i hi => ?_
  rw [BitVec.getMsbD_rotateLeft, BitVec.getMsbD_append]
  split
  case isTrue hk =>
    have hmod : (a + i) % (k + a) = i - k := by
      rw [show a + i = (k + a) + (i - k) by omega, Nat.add_mod_left, Nat.mod_eq_of_lt (by omega)]
    have hstart : k + a - (k + a - (i - k)) = i - k := by omega
    simp [BitVec.getMsbD_extractLsb', hi, hmod, hstart, show i - k < a by omega]
  case isFalse hk =>
    have hmod : (a + i) % (k + a) = a + i := Nat.mod_eq_of_lt (by omega)
    have hstart : k + a - (k - i) = a + i := by omega
    simp [BitVec.getMsbD_extractLsb', hi, hmod, hstart, show i < k by omega, show k ≤ k + a + i by omega]

variable (h : KeyHalf) (amount : Nat)

/-- The elements of a rotated half (43_key_schedule.md R160). -/
theorem seqElem_rotateHalf {i : Nat} (hi : i < 6) : seqElem (rotateHalf h amount) i = seqElem h ((i + amount) % 6) := by
  simp [seqElem, rotateHalf, BitVec.getMsbD_rotateLeft, hi, Nat.add_comm]

/-- A half whose elements are all equal is fixed by every rotation. -/
theorem rotateHalf_eq_self_of_const {b : Bool} (hconst : ∀ i < 6, seqElem h i = b) : rotateHalf h amount = h := by
  refine BitVec.eq_of_getMsbD_eq fun i hi => ?_
  have helem := seqElem_rotateHalf h amount hi
  rwa [hconst _ (Nat.mod_lt _ (by decide)), ← hconst i hi] at helem

/-- A rotation by a multiple of the width changes nothing. -/
theorem rotateHalf_eq_self_of_dvd {a : Nat} (hdvd : 6 ∣ a) : rotateHalf h a = h := by
  refine BitVec.eq_of_getMsbD_eq fun i hi => ?_
  have hmod : (i + a) % 6 = i := by omega
  have helem := seqElem_rotateHalf h a hi
  rwa [hmod] at helem

/-- Rotating by 1 again and again is one rotation by the number of times. -/
theorem iterate_rotateHalf_one (n : Nat) : (fun x => rotateHalf x 1)^[n] h = rotateHalf h n := by
  induction n with
  | zero => exact (rotateHalf_eq_self_of_dvd h (Nat.dvd_zero 6)).symm
  | succ n ih => rw [Function.iterate_succ_apply', ih, rotateHalf_rotateHalf]

end HalfRotation

/-- Settles O33: the elements of a rotated half give its two parts, its fixed points and its order. -/
theorem rotationMovesElementsLeft : Obligations.RotationMovesElementsLeft := by
  unfold Obligations.RotationMovesElementsLeft
  refine ⟨fun h amount i hi => seqElem_rotateHalf h amount hi, fun h => ⟨?_, ?_⟩, fun amount => ⟨?_, ?_⟩,
    rfl, rfl, rfl, rfl, fun h => ?_, rfl⟩
  · exact rotateLeft_eq_append (k := 5) (a := 1) h
  · exact rotateLeft_eq_append (k := 4) (a := 2) h
  · exact rotateHalf_eq_self_of_const _ amount (b := false) (by decide)
  · exact rotateHalf_eq_self_of_const _ amount (b := true) (by decide)
  · rw [iterate_rotateHalf_one, rotateHalf_eq_self_of_dvd h (dvd_refl 6)]

section ChainRotation

/-- Rotations of a key-chain state add up. -/
theorem rotateHalves_rotateHalves (n : Key) (a b : Nat) :
    rotateHalves (rotateHalves n a) b = rotateHalves n (a + b) := by
  rw [rotateHalves, keyLeft_rotateHalves, keyRight_rotateHalves, rotateHalf_rotateHalf, rotateHalf_rotateHalf,
    rotateHalves]

/-- A rotation of both halves is the one by its amount mod 6. -/
theorem rotateHalves_mod (n : Key) (a : Nat) : rotateHalves n (a % 6) = rotateHalves n a := by
  rw [rotateHalves, rotateHalf_mod, rotateHalf_mod, rotateHalves]

/-- A state both of whose halves are fixed is fixed. -/
theorem rotateHalves_eq_self {n : Key} {a : Nat} (hleft : rotateHalf (keyLeft n) a = keyLeft n)
    (hright : rotateHalf (keyRight n) a = keyRight n) : rotateHalves n a = n := by
  rw [rotateHalves, hleft, hright, keyLeft_keyRight]

theorem rotateHalves_eq_self_of_dvd (n : Key) {a : Nat} (hdvd : 6 ∣ a) : rotateHalves n a = n :=
  rotateHalves_eq_self (rotateHalf_eq_self_of_dvd _ hdvd) (rotateHalf_eq_self_of_dvd _ hdvd)

/-- A state of equal bits is fixed by every rotation. -/
theorem rotateHalves_eq_self_of_const {n : Key} {b : Bool} (hleft : ∀ i < 6, seqElem (keyLeft n) i = b)
    (hright : ∀ i < 6, seqElem (keyRight n) i = b) (a : Nat) : rotateHalves n a = n :=
  rotateHalves_eq_self (rotateHalf_eq_self_of_const _ a hleft) (rotateHalf_eq_self_of_const _ a hright)

end ChainRotation

section Schedule

variable (c : Cfg) (k : Key)

/-- The closed form of the key chain (43_key_schedule.md R165). -/
theorem chainAfter_eq_rotateHalves (r : Nat) : chainAfter c k r = rotateHalves k (cumulativeShift c r) := by
  induction r with
  | zero => exact (rotateHalves_eq_self_of_dvd k (Nat.dvd_zero 6)).symm
  | succ r ih => rw [chainAfter, ih, advanceChain, rotateHalves_rotateHalves, cumulativeShift]

theorem chainAfter_eq_rotateHalves_mod (r : Nat) : chainAfter c k r = rotateHalves k (cumulativeShift c r % 6) := by
  rw [chainAfter_eq_rotateHalves, rotateHalves_mod]

/-- The chain is back at KEY after a round whose cumulative amount is a multiple of 6. -/
theorem chainAfter_eq_self_of_dvd {r : Nat} (hdvd : 6 ∣ cumulativeShift c r) : chainAfter c k r = k := by
  rw [chainAfter_eq_rotateHalves, rotateHalves_eq_self_of_dvd k hdvd]

end Schedule

/-- Settles O34, by the closed form of the chain: the rotations of the rounds add up. -/
theorem keyScheduleHasItsClosedForm : Obligations.KeyScheduleHasItsClosedForm := by
  unfold Obligations.KeyScheduleHasItsClosedForm
  refine ⟨fun c k r => ?_, by decide, fun k => ⟨?_, ?_⟩⟩
  · have hchain := chainAfter_eq_rotateHalves_mod c k r
    exact ⟨hchain, congrArg (roundKeyOf c) hchain⟩
  · exact chainAfter_eq_self_of_dvd hardwareCfg k (by decide)
  · exact chainAfter_eq_self_of_dvd hardwareCfg k (by decide)

/-- Settles O35: each clause is the rotation and then KSEL, and a state of equal bits is fixed by every rotation. -/
theorem advanceRotatesThenSelects : Obligations.AdvanceRotatesThenSelects := by
  unfold Obligations.AdvanceRotatesThenSelects
  obtain ⟨-, -, hzeros, hones, hexample⟩ := kselIsWiredAsListed
  refine ⟨fun c r => rfl, by decide, fun c n r => rfl, fun c n => rfl, fun c k r => rfl, fun c r => ⟨?_, ?_⟩,
    by decide, hexample, hzeros, hones⟩
  · exact rotateHalves_eq_self_of_const (b := false) (by decide) (by decide) _
  · exact rotateHalves_eq_self_of_const (b := true) (by decide) (by decide) _

end Sys2Proof.Machine
end

section
/-! PROOFS. The statements of 44_feistel_round.md: the two halves of a round's output, the swap law, a round applied
twice, and the inverse of a pass. -/

namespace Sys2Proof.Machine

section Halves

@[simp] theorem leftHalf_swapHalves (b : Block) : leftHalf (swapHalves b) = rightHalf b := leftHalf_append _ _

@[simp] theorem rightHalf_swapHalves (b : Block) : rightHalf (swapHalves b) = leftHalf b := rightHalf_append _ _

@[simp] theorem swapHalves_swapHalves (b : Block) : swapHalves (swapHalves b) = b := by
  rw [swapHalves, leftHalf_swapHalves, rightHalf_swapHalves, leftHalf_rightHalf]

/-- A block is given by its two halves. -/
theorem append_eq_block_iff {l r : HalfBlock} {b : Block} : l ++ r = b ↔ l = leftHalf b ∧ r = rightHalf b := by
  constructor
  · rintro rfl
    exact ⟨(leftHalf_append l r).symm, (rightHalf_append l r).symm⟩
  · rintro ⟨rfl, rfl⟩
    exact leftHalf_rightHalf b

end Halves

section Combiner

variable {w : Nat}

/-- Combining twice with one value undoes the combination (41_bitops.md R122). -/
theorem xor_xor_cancel (a b : BitVec w) : a ^^^ (a ^^^ b) = b := by
  rw [← BitVec.xor_assoc, BitVec.xor_self, BitVec.zero_xor]

/-- Only zero combines without effect. -/
theorem xor_eq_right_iff {a b : BitVec w} : a ^^^ b = b ↔ a = 0#w := by
  have hcancel : a ^^^ b = 0#w ^^^ b ↔ a = 0#w := BitVec.xor_left_inj b
  rwa [BitVec.zero_xor] at hcancel

end Combiner

section Round

variable (c : Cfg) (b : Block) (rk : Expanded)

/-- The old right half passes unchanged to the new left half (44_feistel_round.md R182). -/
@[simp] theorem leftHalf_feistelRound : leftHalf (feistelRound c b rk) = rightHalf b := leftHalf_append _ _

/-- The left half is combined with F of the right half (R181). -/
@[simp] theorem rightHalf_feistelRound :
    rightHalf (feistelRound c b rk) = roundFunction c (rightHalf b) rk ^^^ leftHalf b := rightHalf_append _ _

/-- The swap law (R184): the second round has the same right half, so it combines with the same value of F. -/
theorem feistelRound_swapHalves_feistelRound :
    feistelRound c (swapHalves (feistelRound c b rk)) rk = swapHalves b := by
  refine append_eq_block_iff.mpr ⟨?_, ?_⟩
  · rw [rightHalf_swapHalves, leftHalf_feistelRound, leftHalf_swapHalves]
  · rw [rightHalf_swapHalves, rightHalf_swapHalves, leftHalf_swapHalves, leftHalf_feistelRound, rightHalf_feistelRound,
      xorBits, xor_xor_cancel]

/-- A round applied twice (R185). -/
theorem feistelRound_feistelRound : feistelRound c (feistelRound c b rk) rk =
    (roundFunction c (rightHalf b) rk ^^^ leftHalf b) ++
      (roundFunction c (roundFunction c (rightHalf b) rk ^^^ leftHalf b) rk ^^^ rightHalf b) := by
  rw [feistelRound, leftHalf_feistelRound, rightHalf_feistelRound, xorBits]

/-- A second round gives the block back exactly when F is zero on both halves (R185): the left half is back when F is
zero on the right half, and then the second round's F is that of the left half. -/
theorem feistelRound_feistelRound_eq_self_iff : feistelRound c (feistelRound c b rk) rk = b ↔
    roundFunction c (rightHalf b) rk = 0#8 ∧ roundFunction c (leftHalf b) rk = 0#8 := by
  rw [feistelRound_feistelRound, append_eq_block_iff, xor_eq_right_iff, xor_eq_right_iff]
  refine and_congr_right fun hright => ?_
  rw [hright, BitVec.zero_xor]

end Round

section ZeroEntries

variable {c : Cfg}

theorem substitute_zero (hA : c.sboxA 0#2 0#4 = 0) (hB : c.sboxB 0#2 0#4 = 0) : substitute c 0#12 = 0#8 := by
  have hlane (box : BitVec 2 → BitVec 4 → Nat) (h : box 0#2 0#4 = 0) : substituteOne box 0#6 = 0#4 :=
    congrArg (BitVec.ofNat 4) h
  show substituteOne c.sboxA 0#6 ++ substituteOne c.sboxB 0#6 = 0#8
  rw [hlane _ hA, hlane _ hB, BitVec.zero_append_zero]

/-- EXPAND and PERM8 are linear, so F of zeros is the substitution of zeros (R181). -/
theorem roundFunction_zero (hA : c.sboxA 0#2 0#4 = 0) (hB : c.sboxB 0#2 0#4 = 0) :
    roundFunction c 0#8 0#12 = 0#8 := by
  have hexpand : expandHalf c 0#8 = 0#12 := tableSelect_zero 8 12 c.eTable
  rw [roundFunction, hexpand, xorBits, BitVec.xor_self, substitute_zero hA hB]
  exact tableSelect_zero 8 8 c.pTable

end ZeroEntries

section Pass

variable (c : Cfg) (k : Key) (b : Block)

/-- The rounds in the other order lead from the swapped block after `r` rounds to the swapped block before them: the
swap law undoes the last round, and the rest is the pass of one round less. -/
theorem undoRounds_swapHalves_blockAfter (r : Nat) :
    undoRounds c k r (swapHalves (blockAfter c k b r)) = swapHalves b := by
  induction r with
  | zero => rfl
  | succ r ih => rw [undoRounds, blockAfter, feistelRound_swapHalves_feistelRound, ih]

theorem undoBlock_encryptBlock : undoBlock c (encryptBlock c b k) k = b := by
  rw [undoBlock, encryptBlock, undoRounds_swapHalves_blockAfter, swapHalves_swapHalves]

/-- A pass has a left inverse on the finitely many blocks. -/
theorem encryptBlock_bijective : Function.Bijective fun b => encryptBlock c b k :=
  Finite.injective_iff_bijective.mp
    (Function.LeftInverse.injective (g := fun b => undoBlock c b k) fun b => undoBlock_encryptBlock c k b)

end Pass

/-- Settles O37, by the swap law. -/
theorem swappedRoundUndoesARound : Obligations.SwappedRoundUndoesARound := feistelRound_swapHalves_feistelRound

/-- Settles O38: the value and the condition speak of the block's halves, and the example is computed. -/
theorem roundTwiceIsNotTheIdentity : Obligations.RoundTwiceIsNotTheIdentity := by
  unfold Obligations.RoundTwiceIsNotTheIdentity
  refine ⟨?_, by decide, by decide⟩
  rintro c b rk _ _ _ rfl rfl rfl
  exact ⟨feistelRound_feistelRound c b rk, feistelRound_feistelRound_eq_self_iff c b rk⟩

/-- Settles O39: the swap law undoes one round on either side, and the rounds of a pass one after the other. -/
theorem passIsUndoneByReversedRounds : Obligations.PassIsUndoneByReversedRounds := by
  unfold Obligations.PassIsUndoneByReversedRounds
  refine ⟨fun c b rk => ⟨?_, ?_⟩, fun c b k => undoBlock_encryptBlock c k b, encryptBlock_bijective⟩
  · rw [feistelRound_swapHalves_feistelRound, swapHalves_swapHalves]
  · rw [feistelRound_swapHalves_feistelRound, swapHalves_swapHalves]

/-- Settles O36: the round is its eight steps by definition, F of zeros is a lookup of zeros, and the example is
computed. -/
theorem feistelRoundFollowsTheEightSteps : Obligations.FeistelRoundFollowsTheEightSteps := by
  unfold Obligations.FeistelRoundFollowsTheEightSteps
  refine ⟨?_, fun c hA hB => roundFunction_zero hA hB, by decide, by decide, by decide, by decide, by decide⟩
  rintro c b rk _ _ _ _ rfl rfl rfl rfl
  exact ⟨rfl, rfl⟩

end Sys2Proof.Machine
end

section
/-! PROOFS. The statements of 45_controller.md: the action of every edge, the round step, hold and delivery, what a run
emits, what waits while a block is in flight, and the pass of a started block. -/

namespace Sys2Proof.Machine

section Edges

variable {c : Cfg} {s t : State}

/-- A word's effect reads neither the pins nor the edge count, so it is the same before the edge is counted. -/
theorem WordEffect.of_clocked {cw : Word} (h : WordEffect cw (clocked s) t) :
    ∃ u, WordEffect cw s u ∧ SameButClock t u := by
  cases h with
  | nop hd => exact ⟨_, .nop hd, rfl⟩
  | setkey hd => exact ⟨_, .setkey hd, rfl⟩
  | putchFirst hd hh => exact ⟨_, .putchFirst hd hh, rfl⟩
  | putchSecond hd hh => exact ⟨_, .putchSecond hd hh, rfl⟩
  | flushEmpty hd hh => exact ⟨_, .flushEmpty hd hh, rfl⟩
  | flushPending hd hh => exact ⟨_, .flushPending hd hh, rfl⟩
  | clrerr hd => exact ⟨_, .clrerr hd, rfl⟩
  | illegal hd => exact ⟨_, .illegal hd, rfl⟩

/-- Outside IDLE the action of an edge reads neither `cmd_valid` nor `cmd` (45_controller.md R208). -/
theorem edgeAction_of_ne_idle (p : Inputs) (valid : Bool) (cw : Word) (h : s.cst ≠ .idle) :
    edgeAction c { p with cmdValid := valid, cmd := cw } s = edgeAction c p s := by
  cases hc : s.cst with
  | idle => exact absurd hc h
  | run => simp only [edgeAction, hc]
  | out => simp only [edgeAction, hc]

/-- A 16-bit word is its own table word (log entry 15). -/
theorem tableWord_toNat (cw : Word) : tableWord 16 cw.toNat = cw := by
  rw [tableWord, Nat.mod_eq_of_lt cw.isLt, BitVec.ofNat_toNat, BitVec.setWidth_eq]

/-- In IDLE an accepted word that is a command is executed (45_controller.md R201). -/
theorem coreStep_command {i : Instr} (hr : (pins s).rst = false) (hc : s.cst = .idle) (hv : (pins s).cmdValid = true)
    (hd : decode (pins s).cmd = .command i) : coreStep c s = exec i (clocked s) := by
  rw [coreStep_word hr hc hv, execWord_command hd]

/-- A command answers a next state, since its word does. -/
theorem exists_exec_eq (i : Instr) (s : State) : ∃ t, exec i s = .next t := by
  obtain ⟨t, ht⟩ := exists_wordEffect (encode i) s
  exact ⟨t, by rw [← execWord_command (decode_encode i), ht.execWord_eq]⟩

theorem WordEffect.emitted_eq {cw : Word} (h : WordEffect cw s t) : t.emitted = s.emitted := by
  cases h <;> rfl

/-- A delivery alone emits, and it emits the pair of BLOCK and SHORT (45_controller.md R206). -/
theorem EdgeEvent.emitted_eq (h : EdgeEvent c s t) :
    t.emitted = s.emitted ++ if wordDelivered s then [⟨s.block, s.short⟩] else [] := by
  cases h with
  | reset hr => simp [wordDelivered, hr]
  | accepted hr hc ha hd hw => simp [hd, hw.emitted_eq]
  | delivered hr hc ha hd => simp [hd]
  | round hr hc ha hd => simp [hd]
  | quiet hr hc ha hd => simp [hd]

/-- The registers that commands alone write: KEY, BUF, HALF and ERR_ILL (45_controller.md R208). -/
def commandRegisters (s : State) : Key × Char8 × Bool × Bool := (s.key, s.buf, s.half, s.errIll)

/-- Outside IDLE an edge without reset is a round, a delivery or quiet, and none of these writes those registers. -/
theorem EdgeEvent.commandRegisters_eq (h : EdgeEvent c s t) (hr : (pins s).rst = false) (hc : s.cst ≠ .idle) :
    commandRegisters t = commandRegisters s := by
  cases h with
  | reset hrst => simp [hr] at hrst
  | accepted _ hidle => exact absurd hidle hc
  | delivered | round | quiet => rfl

/-- IDLE is left by an accepted command alone (45_controller.md R210). -/
theorem EdgeEvent.accepted_of_leaves_idle (h : EdgeEvent c s t) (hc : s.cst = .idle) (ht : t.cst ≠ .idle) :
    commandAccepted s = true := by
  cases h with
  | reset => exact absurd rfl ht
  | accepted _ _ ha => exact ha
  | delivered => exact absurd rfl ht
  | round _ hrun => simp [hc] at hrun
  | quiet => exact absurd hc ht

/-- Below 16 the count of rounds goes up by one without wrapping (45_controller.md R204). -/
theorem roundStep_rcnt_toNat_of_le (h : s.rcnt.toNat ≤ 15) : (roundStep c s).rcnt.toNat = s.rcnt.toNat + 1 := by
  rw [roundStep_rcnt, BitVec.toNat_ofNat, Nat.mod_eq_of_lt (by omega)]

end Edges

section Runs

variable {c : Cfg} {s t : State}

/-- A run of any length answers a state, with one pin value used up and one edge counted for each of its edges. -/
theorem exists_runEdges_eq (c : Cfg) (k : Nat) (s : State) :
    ∃ t, runEdges c k s = .next t ∧ t.edges = s.edges + k ∧ t.inputs = s.inputs.drop k := by
  induction k with
  | zero => exact ⟨s, rfl, rfl, rfl⟩
  | succ k ih =>
    obtain ⟨t, hrun, hedges, hinputs⟩ := ih
    obtain ⟨u, hu⟩ := exists_edgeEvent c t
    obtain ⟨hins, hcount⟩ := coreStep_clock hu.coreStep_eq
    refine ⟨u, runEdges_next hrun hu.coreStep_eq, ?_, ?_⟩
    · rw [hcount, hedges, Nat.add_assoc]
    · rw [hins, hinputs, List.tail_drop]

/-- A run of `k` edges uses up `k` pin values. -/
theorem inputs_of_runEdges {k : Nat} (h : runEdges c k s = .next t) : t.inputs = s.inputs.drop k := by
  obtain ⟨u, hu, -, hinputs⟩ := exists_runEdges_eq c k s
  cases h.symm.trans hu
  exact hinputs

/-- What was emitted stays, in order, at the head of what is emitted later: every edge appends to it. -/
theorem emitted_prefix_of_runEdges {k : Nat} (h : runEdges c k s = .next t) : s.emitted <+: t.emitted := by
  have hstep (u v : State) (hu : s.emitted <+: u.emitted) (huv : coreStep c u = .next v) : s.emitted <+: v.emitted := by
    rw [(coreStep_eq_next_iff.mp huv).emitted_eq]
    exact hu.trans (List.prefix_append _ _)
  obtain ⟨u, hu, hstart⟩ := runEdges_keeps (P := fun u => s.emitted <+: u.emitted) hstep k List.prefix_rfl
  cases h.symm.trans hu
  exact hstart

/-- While a block is in flight and no reset is asserted, the registers that commands write keep their values
(45_controller.md R208). -/
theorem runEdges_commandRegisters (n : Nat) (hr : NoReset n s)
    (hbusy : ∀ m u, m < n → runEdges c m s = .next u → u.cst ≠ .idle) :
    ∃ t, runEdges c n s = .next t ∧ commandRegisters t = commandRegisters s := by
  induction n generalizing s with
  | zero => exact ⟨s, rfl, rfl⟩
  | succ n ih =>
    obtain ⟨u, hu⟩ := exists_edgeEvent c s
    have hfirst : commandRegisters u = commandRegisters s :=
      hu.commandRegisters_eq hr.first (hbusy 0 s (by omega) rfl)
    have hlater (m : Nat) (v : State) (hm : m < n) (hv : runEdges c m u = .next v) : v.cst ≠ .idle :=
      hbusy (m + 1) v (by omega) (by rw [runEdges_succ m hu.coreStep_eq, hv])
    obtain ⟨t, ht, hkeep⟩ := ih (hr.rest (coreStep_clock hu.coreStep_eq).1) hlater
    exact ⟨t, by rw [runEdges_succ n hu.coreStep_eq, ht], hkeep.trans hfirst⟩

/-- Before its last round a block in flight does one round at each edge, and RCNT counts them (45_controller.md R204,
R210). -/
theorem runEdges_run (hw : c.wellFormed = true) (hc : s.cst = .run) (k : Nat) (hle : s.rcnt.toNat + k ≤ 15)
    (hr : NoReset k s) : ∃ t, runEdges c k s = .next t ∧ t.cst = .run ∧ t.rcnt.toNat = s.rcnt.toNat + k := by
  induction k generalizing s with
  | zero => exact ⟨s, rfl, hc, rfl⟩
  | succ k ih =>
    have hstep : coreStep c s = .next (roundStep c (clocked s)) := coreStep_run hr.first hc
    have hne : (clocked s).rcnt ≠ 15#5 := by rw [clocked_rcnt]; bv_omega
    have hcst : (roundStep c (clocked s)).cst = .run := (roundStep_cst_of_ne_last hw hne).trans hc
    have hrcnt : (roundStep c (clocked s)).rcnt.toNat = s.rcnt.toNat + 1 :=
      roundStep_rcnt_toNat_of_le (s := clocked s) (by rw [clocked_rcnt]; omega)
    obtain ⟨t, ht, hrun, hcount⟩ := ih (s := roundStep c (clocked s)) hcst (by omega) (hr.rest rfl)
    exact ⟨t, by rw [runEdges_succ k hstep, ht], hrun, by omega⟩

/-- A block in flight enters OUT at the edge of its last round, the `16 - RCNT`-th (45_controller.md R210). -/
theorem runEdges_run_out (hw : c.wellFormed = true) (hc : s.cst = .run) (hle : s.rcnt.toNat ≤ 15)
    (hr : NoReset (16 - s.rcnt.toNat) s) : ∃ t, runEdges c (16 - s.rcnt.toNat) s = .next t ∧ t.cst = .out := by
  obtain ⟨k, hk⟩ : ∃ k, 16 - s.rcnt.toNat = k + 1 := ⟨15 - s.rcnt.toNat, by omega⟩
  rw [hk] at hr ⊢
  obtain ⟨t, ht, hcst, hcount⟩ := runEdges_run hw hc k (by omega) fun j hj => hr j (by omega)
  have hrst : (pins t).rst = false := by
    rw [pins_of_inputs_drop (inputs_of_runEdges ht)]
    exact hr k (by omega)
  have hlast : (clocked t).rcnt = 15#5 := by rw [clocked_rcnt]; bv_omega
  exact ⟨_, runEdges_next ht (coreStep_run hrst hcst), roundStep_cst_last hw hlast⟩

end Runs

/-- Settles O14: an edge is one event, a command's word has an effect, and a run is its edges one after the other. -/
theorem noEdgeAndNoCommandStops : Obligations.NoEdgeAndNoCommandStops := by
  unfold Obligations.NoEdgeAndNoCommandStops
  refine ⟨fun s => ?_, exists_exec_eq, fun k s => ?_⟩
  · obtain ⟨t, he⟩ := exists_edgeEvent hardwareCfg s
    exact ⟨t, he.coreStep_eq⟩
  · rw [run_core]
    exact exists_runEdges_eq hardwareCfg k s

/-- Settles O16: the edge is the round step, whose count does not wrap below 16 and reaches OUT at 16. -/
theorem roundStepAdvancesBlockAndChain : Obligations.RoundStepAdvancesBlockAndChain := by
  unfold Obligations.RoundStepAdvancesBlockAndChain
  refine ⟨?_, fun c s hw hr hc hle => ?_, fun s hr hc hchain hblock hrcnt => ?_⟩
  · rintro c s _ _ hr hc - rfl rfl
    refine ⟨_, coreStep_run hr hc, ?_⟩
    rw [← hc]
    rfl
  · have hcount : (roundStep c (clocked s)).rcnt.toNat = s.rcnt.toNat + 1 :=
      roundStep_rcnt_toNat_of_le (s := clocked s) hle
    refine ⟨_, coreStep_run hr hc, hcount, by omega, fun hlast => ⟨roundStep_cst_last hw hlast, ?_⟩⟩
    simp [hlast]
  · refine ⟨_, coreStep_run hr hc, ?_, ?_, ?_⟩
    · rw [roundStep_kchain, clocked_kchain, clocked_rcnt, hchain, hrcnt]
      decide
    · rw [roundStep_block, clocked_block, clocked_kchain, clocked_rcnt, hchain, hblock, hrcnt]
      decide
    · rw [roundStep_rcnt, clocked_rcnt, hrcnt]
      decide

/-- Settles O46: the event of an edge decides what it emits, and a run only appends. -/
theorem onlyDeliveryEmits : Obligations.OnlyDeliveryEmits := by
  unfold Obligations.OnlyDeliveryEmits
  refine ⟨fun s t h => (coreStep_eq_next_iff.mp h).emitted_eq, fun k s t h => ?_⟩
  rw [run_core] at h
  exact emitted_prefix_of_runEdges h

/-- Settles O47: outside IDLE no action reads the command pins, and none but reset writes what commands write. -/
theorem commandsWaitWhileABlockIsInFlight : Obligations.CommandsWaitWhileABlockIsInFlight := by
  unfold Obligations.CommandsWaitWhileABlockIsInFlight
  refine ⟨fun c s p ps valid cw hc => ⟨decide_eq_false hc, ?_⟩, fun c n s hr hbusy => ?_⟩
  · exact edgeAction_of_ne_idle (s := clocked { s with inputs := p :: ps }) p valid cw hc
  · obtain ⟨t, ht, hkeep⟩ := runEdges_commandRegisters n hr hbusy
    simp only [commandRegisters, Prod.mk.injEq] at hkeep
    exact ⟨t, ht, hkeep⟩

/-- Settles O48: RUN counts its rounds up to the one that enters OUT, OUT is held or delivered, and of the events of
an edge an accepted command alone leaves IDLE. -/
theorem runReachesOutAndOutWaits : Obligations.RunReachesOutAndOutWaits := by
  unfold Obligations.RunReachesOutAndOutWaits
  refine ⟨fun c s hw hs hc hr => ?_, fun c n s hc hr ho => ?_, fun c s hc hr => ?_, fun c s t hc h ht => ?_⟩
  · obtain ⟨-, -, hrun, -⟩ := hs
    obtain ⟨hle, -⟩ := hrun hc
    refine ⟨fun k hk => ?_, runEdges_run_out hw hc hle hr⟩
    obtain ⟨t, ht, hcst, -⟩ := runEdges_run hw hc k (by omega) fun j hj => hr j (by omega)
    exact ⟨t, ht, hcst⟩
  · exact ⟨_, runEdges_hold n hc hr ho, hc, rfl, rfl, rfl⟩
  · cases ho : (pins s).outReady with
    | false => exact ⟨_, coreStep_hold hr hc ho, by simp [hc]⟩
    | true => exact ⟨_, coreStep_deliver hr hc ho, by simp⟩
  · exact (coreStep_eq_next_iff.mp h).accepted_of_leaves_idle hc ht

/-- Settles O56: a started block goes through the rounds of its pass, and the edge that takes it emits their result. -/
theorem startedBlockIsEncryptedAndDelivered : Obligations.StartedBlockIsEncryptedAndDelivered := by
  unfold Obligations.StartedBlockIsEncryptedAndDelivered
  refine fun c blk short s hw => ⟨fun hr => ?_, fun n h => ?_⟩
  · exact ⟨_, runEdges_start hw 16 le_rfl hr, afterRounds_cst_out hw, rfl, afterRounds_block_last hw⟩
  · exact ⟨_, runEdges_taken hw h, rfl, emitted_deliver_afterRounds hw⟩

/-- Settles O12: the step executes the word on the pins, and a command's table word is the word it decodes from. -/
theorem stepRunsTheDecodedCommand : Obligations.StepRunsTheDecodedCommand := by
  unfold Obligations.StepRunsTheDecodedCommand
  refine ⟨fun s i hc hr hv hd => coreStep_command hr hc hv hd, fun s i => ?_⟩
  have hd : decode (tableWord 16 (encode i).toNat) = .command i := by rw [tableWord_toNat, decode_encode]
  exact coreStep_command (s := s.withFetchWord 16 (encode i).toNat) rfl rfl rfl hd

/-- Settles O13: each event of an edge is the one action of its clause, taken before the edge is counted. -/
theorem edgeTakesTheActionOfItsState : Obligations.EdgeTakesTheActionOfItsState := by
  unfold Obligations.EdgeTakesTheActionOfItsState
  intro c s
  obtain ⟨t, he⟩ := exists_edgeEvent c s
  have hstep := he.coreStep_eq
  cases he with
  | reset hr => exact ⟨_, resetRegisters s, hstep, rfl, by simp [hr]⟩
  | accepted hr hc ha hd hw =>
    obtain ⟨-, hv, -⟩ := commandAccepted_iff.mp ha
    obtain ⟨u, hu, hsame⟩ := hw.of_clocked
    exact ⟨_, u, hstep, hsame, by simp [hr, hc, hv, hu.execWord_eq]⟩
  | delivered hr hc ha hd =>
    obtain ⟨-, -, ho⟩ := wordDelivered_iff.mp hd
    exact ⟨_, deliver s, hstep, rfl, by simp [hr, hc, ho]⟩
  | round hr hc ha hd => exact ⟨_, roundStep c s, hstep, rfl, by simp +contextual [hr, hc]⟩
  | quiet hr hc ha hd =>
    have hnv (hcst : s.cst = .idle) : (pins s).cmdValid = false := by
      simpa [commandAccepted, cmdReady, hr, hcst] using ha
    have hno (hcst : s.cst = .out) : (pins s).outReady = false := by
      simpa [wordDelivered, outValid, hr, hcst] using hd
    exact ⟨_, s, hstep, rfl, by simp +contextual [hr, hc, hnv, hno]⟩

/-- Settles O15: the idle edge is counted and does nothing else. -/
theorem idleEdgeChangesNoRegister : Obligations.IdleEdgeChangesNoRegister :=
  fun _ _ hr hc hv => ⟨_, coreStep_idle hr hc hv, rfl⟩

/-- Settles O17: the held edge is counted and does nothing else, and in OUT the data pins show BLOCK and SHORT. -/
theorem holdKeepsTheFinishedBlock : Obligations.HoldKeepsTheFinishedBlock := by
  unfold Obligations.HoldKeepsTheFinishedBlock
  intro c s hr hc ho
  have hs : outValid s = true := outValid_iff.mpr hc
  have ht : outValid (clocked s) = true := outValid_iff.mpr hc
  refine ⟨_, coreStep_hold hr hc ho, rfl, ht, ?_, ?_⟩
  · rw [outData_of_outValid hs, outData_of_outValid ht, clocked_block]
  · rw [outShort_of_outValid hs, outShort_of_outValid ht, clocked_short]

/-- Settles O18: the pair on the output pins is BLOCK and SHORT, which the delivery emits before it clears them. -/
theorem deliveryEmitsThePairAndGoesIdle : Obligations.DeliveryEmitsThePairAndGoesIdle := by
  unfold Obligations.DeliveryEmitsThePairAndGoesIdle
  intro c s hr hc ho
  have hs : outValid s = true := outValid_iff.mpr hc
  refine ⟨_, coreStep_deliver hr hc ho, rfl, ?_, fun hblock hshort => ?_⟩
  · rw [outData_of_outValid hs, outShort_of_outValid hs]
    rfl
  · have hpass : encryptBlock tc0 0x636F#16 0x96D#12 = 0xA0EC#16 := by decide +kernel
    simp [hblock, hshort, hpass]

end Sys2Proof.Machine
end

section
/-! PROOFS. The statements of 46_commands.md: the words of each command and of its row, what the command writes and
leaves unchanged, and what an illegal word does instead. -/

namespace Sys2Proof.Machine

/-- The word of a command executes it (46_commands.md R236). -/
theorem execWord_encode (i : Instr) (s : State) : execWord (encode i) s = exec i s :=
  execWord_command (decode_encode i) s

/-- Clearing ERR_ILL when it is 0 changes nothing (46_commands.md R234). -/
theorem clearErrIll_eq_self {s : State} (h : s.errIll = false) : clearErrIll s = s := by
  rw [clearErrIll, ← h]

/-- FLUSH leaves no character pending, so a second one finds none (46_commands.md R233). -/
theorem exists_execFlush_execFlush (s : State) : ∃ t, execFlush s = .next t ∧ execFlush t = .next t := by
  cases hh : s.half with
  | false => exact ⟨s, execFlush_empty hh, execFlush_empty hh⟩
  | true => exact ⟨_, execFlush_pending hh, execFlush_empty rfl⟩

/-- Settles O1: the word is NOP's own, a nonzero Z12 makes its row's others illegal, and NOP skips. -/
theorem nopChangesNoRegister : Obligations.NopChangesNoRegister :=
  ⟨decode_encode .nop, fun _ hop harg => DecodeCase.decode_eq (.nonzeroZ12 (.inl hop) harg), execNop_eq⟩

/-- Settles O2: SETKEY writes KEY, which the start of a pending character's block copies into KCHAIN, and outside IDLE
no event of an edge writes it. -/
theorem setkeyWritesKeyAndNothingElse : Obligations.SetkeyWritesKeyAndNothingElse := by
  unfold Obligations.SetkeyWritesKeyAndNothingElse
  refine ⟨fun k => decode_encode (.setkey k), execSetkey_eq, fun s => execSetkey_eq s.key s, fun k char s hh => ?_,
    fun c s hc hr => ?_, decode_encode (.setkey 0x96D#12)⟩
  · have hpending : (writeKey k s).half = true := hh
    exact ⟨_, _, _, execSetkey_eq k s, execPutch_second char hpending, execFlush_pending hpending, rfl, rfl, rfl, rfl⟩
  · obtain ⟨t, he⟩ := exists_edgeEvent c s
    have hkeep : commandRegisters t = commandRegisters s := he.commandRegisters_eq hr hc
    exact ⟨t, he.coreStep_eq, congrArg Prod.fst hkeep⟩

/-- Settles O3: by the flag HALF, PUTCH holds its character or starts the block of the pair. -/
theorem putchHoldsOrStartsAPair : Obligations.PutchHoldsOrStartsAPair := by
  unfold Obligations.PutchHoldsOrStartsAPair
  refine ⟨fun char => ?_, fun _ hop hz => DecodeCase.decode_eq (.nonzeroZ4 hop hz),
    fun char _ hh => execPutch_first char hh, fun char _ hh => execPutch_second char hh, fun s hh => ?_⟩
  · rw [← encode_putch, decode_encode]
  · obtain ⟨hfirst, hsecond⟩ := exec_putch_putch hh 0x63#8 0x6F#8
    exact ⟨_, _, (execWord_encode (.putch 0x63#8) s).trans hfirst, (execWord_encode (.putch 0x6F#8) _).trans hsecond,
      rfl, rfl⟩

/-- Settles O4: by the flag HALF, FLUSH starts the short block of the pending character or skips. -/
theorem flushStartsAShortBlockOrNothing : Obligations.FlushStartsAShortBlockOrNothing := by
  unfold Obligations.FlushStartsAShortBlockOrNothing
  refine ⟨decode_encode .flush, fun _ hop harg => DecodeCase.decode_eq (.nonzeroZ12 (.inr (.inl hop)) harg),
    fun _ hh => execFlush_pending hh, fun _ hh => execFlush_empty hh, exists_execFlush_execFlush,
    fun s hh hbuf => ?_⟩
  have hblock : shortBlock s.buf = 0x6300#16 := by
    rw [hbuf]
    rfl
  exact ⟨_, (execWord_encode .flush s).trans (execFlush_pending hh), rfl, hblock, rfl⟩

/-- Settles O5: CLRERR clears ERR_ILL, which is bit 4 of the status word, and its row's other words raise it. -/
theorem clrerrClearsErrIllAndNothingElse : Obligations.ClrerrClearsErrIllAndNothingElse := by
  unfold Obligations.ClrerrClearsErrIllAndNothingElse
  refine ⟨decode_encode .clrerr, execClrerr_eq, fun s herr => ?_, fun cw s hop harg => ?_, fun s => ?_⟩
  · rw [exec, execClrerr_eq, clearErrIll_eq_self herr]
  · exact execWord_illegal (DecodeCase.decode_eq (.nonzeroZ12 (.inr (.inr hop)) harg)) s
  · obtain ⟨-, -, -, -, hbit, -, -⟩ := statusWordShowsItsFields (clearErrIll s)
    exact ⟨_, execWord_encode .clrerr s, hbit⟩

/-- Settles O6: in IDLE the edge accepts the word and executes it, and setting ERR_ILL leaves CST alone. -/
theorem illegalWordSetsErrIllAndNothingElse : Obligations.IllegalWordSetsErrIllAndNothingElse := by
  unfold Obligations.IllegalWordSetsErrIllAndNothingElse
  refine ⟨fun _ _ s hd => execWord_illegal hd s, fun c why s hr hc hv hd => ?_,
    .unassignedOpcode, DecodeCase.decode_eq (.unassignedOpcode (by decide))⟩
  have hstep : coreStep c s = .next (setErrIll (clocked s)) := by rw [coreStep_word hr hc hv, execWord_illegal hd]
  exact ⟨_, hstep, rfl, commandAccepted_iff.mpr ⟨hr, hv, hc⟩, cmdReady_iff.mpr hc⟩

end Sys2Proof.Machine
end

section
/-! PROOFS. The statements of 70_reset_and_hazards.md: reset at one edge and held, the edges of a block, and the
message and boot protocols. -/

namespace Sys2Proof.Machine

section FirstEdge

variable {c : Cfg} {s t : State}

theorem clocked_eq_elapsed_one (s : State) : clocked s = elapsed 1 s := by
  rw [← clocked_elapsed, elapsed_zero]

theorem runEdges_one (h : coreStep c s = .next t) : runEdges c 1 s = .next t := by
  rw [runEdges_succ 0 h, runEdges_zero]

end FirstEdge

section Reset

variable {c : Cfg} {s : State}

/-- The pins of a core whose registers are those of reset (10_state.md R45, R47). -/
theorem resetRegisters_pins (s : State) : cmdReady (resetRegisters s) = true ∧ outValid (resetRegisters s) = false ∧
    status (resetRegisters s) = 0x0000#16 :=
  ⟨rfl, rfl, by simp [status, outv, busy]⟩

/-- A reset that follows a reset and an edge leaves nothing of the first one. -/
theorem resetRegisters_clocked_resetRegisters (s : State) :
    resetRegisters (clocked (resetRegisters s)) = resetRegisters (clocked s) := rfl

/-- While reset is held, the state after each of its edges is the reset of the state before them
(70_reset_and_hazards.md R292). -/
theorem runEdges_reset (n : Nat) (hr : ∀ j, j < n + 1 → (pinsAt j s).rst = true) :
    runEdges c (n + 1) s = .next (resetRegisters (elapsed (n + 1) s)) := by
  induction n with
  | zero =>
    have hfirst : (pins s).rst = true := by simpa using hr 0 (by omega)
    rw [runEdges_one (coreStep_reset hfirst), clocked_eq_elapsed_one]
  | succ n ih =>
    have hrun := ih fun j hj => hr j (by omega)
    have hpins : pins (resetRegisters (elapsed (n + 1) s)) = pinsAt (n + 1) s := pins_of_inputs_drop rfl
    have hlast : (pins (resetRegisters (elapsed (n + 1) s))).rst = true := by rw [hpins]; exact hr _ (by omega)
    rw [runEdges_next hrun (coreStep_reset hlast), resetRegisters_clocked_resetRegisters, clocked_elapsed]

end Reset

/-- Settles O19: `rst = 1` forbids both handshakes, and the registers the edge writes are those of the reset state. -/
theorem resetGivesEveryRegisterItsValue : Obligations.ResetGivesEveryRegisterItsValue := by
  unfold Obligations.ResetGivesEveryRegisterItsValue
  refine ⟨fun c s hr => ⟨⟨_, coreStep_reset hr, rfl⟩, ?_, ?_⟩, fun c s t hr ht => ?_, resetRegisters_pins State.reset⟩
  · simp [commandAccepted, hr]
  · simp [wordDelivered, hr]
  · cases (coreStep_reset hr).symm.trans ht
    exact resetRegisters_pins (clocked s)

/-- Settles O20: a reset edge after a reset edge changes no register and emits nothing. -/
theorem heldResetStaysAtTheResetState : Obligations.HeldResetStaysAtTheResetState :=
  fun _ n _ hr => ⟨_, runEdges_reset n hr, rfl⟩

section BlockTiming

variable {c : Cfg} {s t : State} {cw : Word} {blk : Block} {short : Bool} {e r : Nat}

/-- A word that starts a block is PUTCH or FLUSH with a character pending (46_commands.md R232, R233). -/
theorem WordEffect.eq_start_of_starts (h : WordEffect cw s t) (hb : startsBlock s.half cw = true) :
    ∃ blk short, t = start blk short s := by
  cases h with
  | putchSecond | flushPending => exact ⟨_, _, rfl⟩
  | _ => simp_all [startsBlock]

theorem exists_execWord_start (hb : startsBlock s.half cw = true) :
    ∃ blk short, execWord cw s = .next (start blk short s) := by
  obtain ⟨t, ht⟩ := exists_wordEffect cw s
  obtain ⟨blk, short, rfl⟩ := ht.eq_start_of_starts hb
  exact ⟨blk, short, ht.execWord_eq⟩

/-- The pins of a block that starts at the `e`-th edge. -/
theorem pinsAt_start_elapsed (j : Nat) : pinsAt j (start blk short (elapsed e s)) = pinsAt (e + j) s :=
  pinsAt_of_inputs_drop rfl j

/-- A block that starts at the `e`-th edge has `r` of its rounds done `r` edges later (70_reset_and_hazards.md R300). -/
theorem runEdges_started_rounds (hw : c.wellFormed = true)
    (hstart : runEdges c e s = .next (start blk short (elapsed e s))) (hle : r ≤ 16) (hr : NoReset (e + r) s) :
    runEdges c (e + r) s = .next (afterRounds c blk short r (elapsed e s)) := by
  rw [runEdges_add hstart]
  exact runEdges_start hw r hle fun j hj => by rw [pinsAt_start_elapsed]; exact hr _ (by omega)

/-- A block that starts at the `e`-th edge is delivered 17 edges later, if the host is ready then (R300). -/
theorem runEdges_started_taken (hw : c.wellFormed = true)
    (hstart : runEdges c e s = .next (start blk short (elapsed e s))) (hr : NoReset (e + 17) s)
    (ho : (pinsAt (e + 16) s).outReady = true) :
    runEdges c (e + 17) s = .next (deliver (elapsed 1 (afterRounds c blk short 16 (elapsed e s)))) := by
  rw [runEdges_add hstart]
  refine runEdges_taken (n := 0) hw ⟨fun j hj => ?_, nofun, by rw [pinsAt_start_elapsed, ho]⟩
  rw [pinsAt_start_elapsed]
  exact hr _ (by omega)

/-- From the edge that starts a block until its delivery the core is not in IDLE (70_reset_and_hazards.md R298). -/
theorem afterRounds_cst_ne_idle (c : Cfg) (blk : Block) (short : Bool) (r : Nat) (s : State) :
    (afterRounds c blk short r s).cst ≠ .idle := by
  simp only [afterRounds, elapsed_cst]
  split <;> simp

/-- A word that starts a block, accepted in IDLE, starts it at its own edge. -/
theorem exists_runEdges_start (hc : s.cst = .idle) (hr : (pins s).rst = false) (hv : (pins s).cmdValid = true)
    (hb : startsBlock s.half (pins s).cmd = true) :
    ∃ blk short, runEdges c 1 s = .next (start blk short (elapsed 1 s)) := by
  obtain ⟨blk, short, hword⟩ := exists_execWord_start (s := clocked s) hb
  rw [← clocked_eq_elapsed_one]
  exact ⟨blk, short, runEdges_one ((coreStep_word hr hc hv).trans hword)⟩

/-- Two PUTCH accepted at successive edges from IDLE with no character pending start the block of their pair at the
second edge (46_commands.md R232). -/
theorem runEdges_putch_putch {a b : Char8} (hc : s.cst = .idle) (hh : s.half = false) (hr : NoReset 2 s)
    (hva : (pinsAt 0 s).cmdValid = true) (hda : decode (pinsAt 0 s).cmd = .command (.putch a))
    (hvb : (pinsAt 1 s).cmdValid = true) (hdb : decode (pinsAt 1 s).cmd = .command (.putch b)) :
    runEdges c 2 s = .next (start (pairBlock a b) false (elapsed 2 s)) := by
  rw [pinsAt_zero] at hva hda
  have hfirst : coreStep c s = .next (holdChar a (elapsed 1 s)) := by
    rw [← clocked_eq_elapsed_one, coreStep_command hr.first hc hva hda, exec, execPutch_first (s := clocked s) a hh]
  have hpins : pins (holdChar a (elapsed 1 s)) = pinsAt 1 s := pins_of_inputs_drop rfl
  rw [← hpins] at hvb hdb
  have hrst : (pins (holdChar a (elapsed 1 s))).rst = false := by rw [hpins]; exact hr 1 (by omega)
  refine runEdges_next (runEdges_one hfirst) ?_
  rw [coreStep_command hrst hc hvb hdb, exec, execPutch_second b rfl, ← clocked_elapsed 1]
  rfl

end BlockTiming

section HostWords

variable {half : Bool} {cw : Word} {ws : List Word}

@[simp] theorem startsBlock_putch (half : Bool) (char : Char8) : startsBlock half (encode (.putch char)) = half := by
  simp [startsBlock, decode_encode]

@[simp] theorem startsBlock_flush (half : Bool) : startsBlock half (encode .flush) = half := by
  simp [startsBlock, decode_encode]

@[simp] theorem startsBlock_setkey (half : Bool) (k : Key) : startsBlock half (encode (.setkey k)) = false := by
  simp [startsBlock, decode_encode]

@[simp] theorem halfAfter_putch (half : Bool) (char : Char8) : halfAfter half (encode (.putch char)) = !half := by
  simp [halfAfter, decode_encode]

/-- A word that starts a block leaves no character pending. -/
theorem halfAfter_of_starts (hb : startsBlock half cw = true) : halfAfter half cw = false := by
  simp only [startsBlock] at hb
  simp only [halfAfter]
  split <;> simp_all

/-- The pin values of a word that starts a block: its own, and 17 at which no word is taken. -/
theorem schedule_of_starts (hb : startsBlock half cw = true) (ws : List Word) :
    schedule half (cw :: ws) = (presenting cw :: List.replicate 17 (awaiting ws)) ++ schedule false ws := by
  simp [schedule, hb, halfAfter_of_starts hb]

/-- The pin values of a word that starts no block: its own. -/
theorem schedule_of_not_starts (hb : startsBlock half cw = false) (ws : List Word) :
    schedule half (cw :: ws) = presenting cw :: schedule (halfAfter half cw) ws := by
  simp [schedule, hb]

/-- The first PUTCH of a pair starts no block. -/
theorem schedule_putch_first (char : Char8) (ws : List Word) :
    schedule false (encode (.putch char) :: ws) = presenting (encode (.putch char)) :: schedule true ws := by
  rw [schedule_of_not_starts (startsBlock_putch false char), halfAfter_putch, Bool.not_false]

end HostWords

/-- Settles O49: the command's edge starts the block, its rounds take an edge each, and the host takes it at the next;
of two PUTCH the second starts the block. -/
theorem blockTakesItsEdges : Obligations.BlockTakesItsEdges := by
  unfold Obligations.BlockTakesItsEdges
  refine ⟨fun c s hw hc hr hv hb => ?_, fun c s a b hw hc hh hr hva hda hvb hdb ho => ?_, fun a b => ?_⟩
  · obtain ⟨blk, short, hstart⟩ := exists_runEdges_start (c := c) hc hr.first hv hb
    have hrounds {r : Nat} (hle : r ≤ 16) : runEdges c (1 + r) s = .next (afterRounds c blk short r (elapsed 1 s)) :=
      runEdges_started_rounds hw hstart hle fun j hj => hr j (by omega)
    refine ⟨fun k hk => ⟨_, hrounds hk.le, afterRounds_cst_run hw hk, rfl⟩, ?_, fun ho => ?_⟩
    · exact ⟨_, hrounds le_rfl, outValid_iff.mpr (afterRounds_cst_out hw), rfl⟩
    · exact ⟨_, runEdges_started_taken hw hstart hr ho, rfl⟩
  · have hstart : runEdges c 2 s = .next (start (pairBlock a b) false (elapsed 2 s)) :=
      runEdges_putch_putch hc hh (fun j hj => hr j (by omega)) hva hda hvb hdb
    refine ⟨fun k hk2 hk => ?_, _, runEdges_started_taken hw hstart hr ho, rfl, emitted_deliver_afterRounds hw⟩
    obtain ⟨r, rfl⟩ := Nat.exists_eq_add_of_le hk2
    have hrun := runEdges_started_rounds (r := r) hw hstart (by omega) fun j hj => hr j (by omega)
    exact ⟨_, hrun, decide_eq_false (afterRounds_cst_ne_idle _ _ _ _ _)⟩
  · rw [schedule_putch_first, schedule_of_starts (startsBlock_putch true b)]
    rfl

section Host

variable {half : Bool} {s : State} {ws : List Word} {ps later : List Inputs}

/-- A host that sends words never resets the core and takes every output word at once (log entry 12). -/
theorem ready_of_mem_schedule {p : Inputs} (hp : p ∈ schedule half ws) : p.rst = false ∧ p.outReady = true := by
  have hawaiting (ws : List Word) : (awaiting ws).rst = false ∧ (awaiting ws).outReady = true := by
    cases ws <;> exact ⟨rfl, rfl⟩
  induction ws generalizing half with
  | nil => cases hp
  | cons cw ws ih =>
    rw [schedule, List.mem_cons, List.mem_append] at hp
    obtain rfl | hwait | hlater := hp
    · exact ⟨rfl, rfl⟩
    · split at hwait
      · rw [List.eq_of_mem_replicate hwait]
        exact hawaiting ws
      · cases hwait
    · exact ih hlater

theorem pinsAt_mem {j : Nat} (hin : s.inputs = ps ++ later) (hj : j < ps.length) : pinsAt j s ∈ ps := by
  rw [pinsAt, hin, List.getD_append _ _ _ _ hj, List.getD_eq_getElem _ _ hj]
  exact List.getElem_mem hj

/-- A word presented to a core in IDLE is executed. -/
theorem coreStep_presenting {c : Cfg} {i : Instr} (hc : s.cst = .idle)
    (hin : s.inputs = presenting (encode i) :: later) : coreStep c s = exec i (clocked s) := by
  have hpins : pins s = presenting (encode i) := pins_of_inputs hin
  exact coreStep_command (by rw [hpins]; rfl) hc (by rw [hpins]; rfl) (by rw [hpins]; exact decode_encode i)

end Host

section Emission

/-- A run of `n` edges from `s` to `t` that emits `out` and leaves KEY and ERR_ILL as they were. -/
structure Emits (c : Cfg) (n : Nat) (out : List OutWord) (s t : State) : Prop where
  run : runEdges c n s = .next t
  emitted : t.emitted = s.emitted ++ out
  key : t.key = s.key
  errIll : t.errIll = s.errIll

variable {c : Cfg} {m n : Nat} {out₁ out₂ : List OutWord} {s t u : State} {blk : Block} {short : Bool}
  {ws : List Word} {later : List Inputs}

theorem Emits.trans (h₁ : Emits c m out₁ s u) (h₂ : Emits c n out₂ u t) : Emits c (m + n) (out₁ ++ out₂) s t where
  run := by rw [runEdges_add h₁.run, h₂.run]
  emitted := by rw [h₂.emitted, h₁.emitted, List.append_assoc]
  key := h₂.key.trans h₁.key
  errIll := h₂.errIll.trans h₁.errIll

theorem emits_of_coreStep (h : coreStep c s = .next t) (hemitted : t.emitted = s.emitted) (hkey : t.key = s.key)
    (herr : t.errIll = s.errIll) : Emits c 1 [] s t where
  run := runEdges_one h
  emitted := by rw [hemitted, List.append_nil]
  key := hkey
  errIll := herr

/-- A command of a scheduled host that starts a block: after the 18 edges the host gives it, the pass of the block
under KEY is emitted, the core is settled, and the host's next word is on the pins (45_controller.md R207). -/
theorem exists_emits_block {i : Instr} (hw : c.wellFormed = true) (hc : s.cst = .idle)
    (hb : startsBlock s.half (encode i) = true) (hexec : exec i (clocked s) = .next (start blk short (clocked s)))
    (hin : s.inputs = schedule s.half (encode i :: ws) ++ later) :
    ∃ t, Emits c 18 [⟨encryptBlock c blk s.key, short⟩] s t ∧ Settled t ∧ t.inputs = schedule false ws ++ later := by
  have hready (j : Nat) (hj : j < 18) : (pinsAt j s).rst = false ∧ (pinsAt j s).outReady = true := by
    refine ready_of_mem_schedule (pinsAt_mem hin ?_)
    rw [schedule_of_starts hb, List.length_append]
    exact Nat.lt_add_right _ hj
  rw [schedule_of_starts hb] at hin
  have hstart : runEdges c 1 s = .next (start blk short (elapsed 1 s)) := by
    rw [← clocked_eq_elapsed_one]
    exact runEdges_one ((coreStep_presenting hc hin).trans hexec)
  have hrun := runEdges_started_taken hw hstart (fun j hj => (hready j hj).1) (hready 17 (by omega)).2
  refine ⟨_, ⟨hrun, emitted_deliver_afterRounds hw, rfl, rfl⟩, ⟨rfl, rfl⟩, ?_⟩
  rw [inputs_of_runEdges hrun, hin, List.append_assoc]
  rfl

end Emission

section Messages

variable {c : Cfg} {s : State} {later : List Inputs}

/-- The characters the core holds: the one in BUF while HALF = 1 (10_state.md R35, R36). -/
def pendingChars (s : State) : List Char8 := if s.half then [s.buf] else []

theorem pendingChars_of_pending (hh : s.half = true) : pendingChars s = [s.buf] := if_pos hh

theorem pendingChars_of_empty (hh : s.half = false) : pendingChars s = [] := by
  simp [pendingChars, hh]

/-- The pairs a text is delivered as (45_controller.md R200, R206). -/
def textOutput (c : Cfg) (text : List Char8) (k : Key) : List OutWord := asOutWords (encryptText c text k)

theorem textOutput_nil (c : Cfg) (k : Key) : textOutput c [] k = [] := rfl

theorem textOutput_single (c : Cfg) (c0 : Char8) (k : Key) :
    textOutput c [c0] k = [⟨encryptBlock c (shortBlock c0) k, true⟩] := by
  simp [textOutput, asOutWords, encryptText, textBlocks_single]

theorem textOutput_pair (c : Cfg) (c0 c1 : Char8) (cs : List Char8) (k : Key) :
    textOutput c (c0 :: c1 :: cs) k = ⟨encryptBlock c (pairBlock c0 c1) k, false⟩ :: textOutput c cs k := by
  simp [textOutput, asOutWords, encryptText, textBlocks_pair]

theorem messageWords_cons (char : Char8) (chars : List Char8) :
    messageWords (char :: chars) = encode (.putch char) :: messageWords chars := rfl

/-- A message sent from IDLE joins the characters the core holds to a text, which is emitted block by block: PUTCH
holds its character or completes a pair, and FLUSH ends the text (46_commands.md R232, R233). -/
theorem exists_emits_message (hw : c.wellFormed = true) (chars : List Char8) (hc : s.cst = .idle)
    (hin : s.inputs = schedule s.half (messageWords chars) ++ later) :
    ∃ t, Emits c (schedule s.half (messageWords chars)).length (textOutput c (pendingChars s ++ chars) s.key) s t ∧
      Settled t := by
  induction chars generalizing s with
  | nil =>
    cases hh : s.half with
    | false =>
      rw [pendingChars_of_empty hh, List.append_nil, textOutput_nil]
      have hstep : coreStep c s = .next (clocked s) :=
        (coreStep_presenting hc hin).trans (execFlush_empty (s := clocked s) hh)
      exact ⟨_, emits_of_coreStep hstep rfl rfl rfl, hc, hh⟩
    | true =>
      obtain ⟨t, ht, hset, -⟩ :=
        exists_emits_block (i := .flush) hw hc (by simp [hh]) (execFlush_pending (s := clocked s) hh) hin
      rw [pendingChars_of_pending hh, List.append_nil, textOutput_single]
      exact ⟨t, ht, hset⟩
  | cons char chars ih =>
    rw [messageWords_cons] at hin ⊢
    cases hh : s.half with
    | false =>
      have hstep : coreStep c s = .next (holdChar char (clocked s)) :=
        (coreStep_presenting hc hin).trans (execPutch_first (s := clocked s) char hh)
      rw [hh, schedule_putch_first] at hin
      obtain ⟨t, ht, hset⟩ := ih (s := holdChar char (clocked s)) hc (by simp [hin])
      rw [pendingChars_of_empty hh, schedule_putch_first, List.length_cons, Nat.add_comm]
      exact ⟨t, (emits_of_coreStep hstep rfl rfl rfl).trans ht, hset⟩
    | true =>
      obtain ⟨u, hu, ⟨hidle, hempty⟩, hins⟩ :=
        exists_emits_block (i := .putch char) hw hc (by simp [hh]) (execPutch_second (s := clocked s) char hh) hin
      obtain ⟨t, ht, hend⟩ := ih hidle (by rw [hins, hempty])
      rw [schedule_of_starts (startsBlock_putch true char), List.length_append, pendingChars_of_pending hh,
        List.singleton_append, textOutput_pair]
      rw [hempty, pendingChars_of_empty hempty, hu.key] at ht
      exact ⟨t, hu.trans ht, hend⟩

/-- The boot sequence leaves a settled core with the key set, ERR_ILL = 0 and nothing emitted, from any state
(70_reset_and_hazards.md R296). -/
theorem exists_runEdges_boot {k : Key} (hin : s.inputs = bootSchedule k ++ later) :
    ∃ t, runEdges c (bootSchedule k).length s = .next t ∧ Settled t ∧ t.key = k ∧ t.errIll = false ∧
      t.emitted = s.emitted ∧ t.inputs = later := by
  have hboot : bootSchedule k = [resetting, presenting (encode (.setkey k))] := by
    rw [bootSchedule, schedule_of_not_starts (startsBlock_setkey false k), schedule]
  rw [hboot] at hin ⊢
  have hreset : coreStep c s = .next (resetRegisters (clocked s)) := coreStep_reset (by rw [pins_of_inputs hin]; rfl)
  have hins : (resetRegisters (clocked s)).inputs = presenting (encode (.setkey k)) :: later := by simp [hin]
  have hsetkey : coreStep c (resetRegisters (clocked s)) = .next (writeKey k (clocked (resetRegisters (clocked s)))) :=
    coreStep_presenting rfl hins
  exact ⟨_, runEdges_next (runEdges_one hreset) hsetkey, ⟨rfl, rfl⟩, rfl, rfl, rfl, by simp [hin]⟩

end Messages

/-- Settles O58: a settled core holds no character, so the text the message joins is the message. -/
theorem messageIsEncryptedBlockByBlock : Obligations.MessageIsEncryptedBlockByBlock := by
  unfold Obligations.MessageIsEncryptedBlockByBlock
  intro chars s later ⟨hidle, hempty⟩ hin
  obtain ⟨t, ht, hset⟩ := exists_emits_message hardwareCfg_wellFormed chars hidle (by rw [hempty]; exact hin)
  rw [hempty, pendingChars_of_empty hempty] at ht
  refine ⟨t, (run_core _ s).trans ht.run, hset, ht.emitted, ht.key, ht.errIll, ?_⟩
  rw [inputs_of_runEdges ht.run, hin]
  exact List.drop_left

/-- Settles O59: the reset edge and SETKEY leave a settled core with KEY = k and nothing emitted, to which the message
is sent. -/
theorem bootThenMessageFromAnyState : Obligations.BootThenMessageFromAnyState := by
  unfold Obligations.BootThenMessageFromAnyState
  intro k chars s later hin
  obtain ⟨u, hrun, hset, hkey, herr, hemitted, hins⟩ :=
    exists_runEdges_boot (c := hardwareCfg) (hin.trans (List.append_assoc _ _ _))
  obtain ⟨t, hmessage, hend, hout, hkeep, hclean, hlater⟩ := messageIsEncryptedBlockByBlock chars u later hset hins
  rw [run_core] at hmessage
  rw [hemitted, hkey] at hout
  refine ⟨t, ?_, hend, hkeep.trans hkey, hlater, Prod.ext hout (hclean.trans herr)⟩
  rw [run_core, List.length_append, runEdges_add hrun, hmessage]

end Sys2Proof.Machine
end
